-- ==== Sys2Proof/Word.lean ====
section
/-! DEFINITION. The word types of the codec: bytes, 16-bit values and byte sequences (00_scope.md rule R9). -/

namespace Sys2Proof

/-- An unsigned 8-bit value, `0..255` (rule R9). -/
abbrev Byte := BitVec 8

/-- A 16-bit unsigned value: a checksum (`CSUM_W`) or a status (`STATUS_W`), rule R6. -/
abbrev Half := BitVec 16

/-- An ordered byte sequence; index 0 is the first byte, the one transmitted first (rules R9, R53). -/
abbrev Bytes := List Byte

/-- One burst: the byte sequence of one `SinkWrite` (rules R11, R56). -/
abbrev Burst := Bytes

end Sys2Proof
end

