-- ==== Sys2Proof/Config.lean ====
section
/-! DEFINITION. The parameters of the codec (00_scope.md rule R6): the fixed ones as constants, the OPEN ones as the
fields of `Config`, and the one choice the spec leaves free (93_implementation_defined.md U7) as opaque constants.

The OPEN parameters are arguments of the model (rule R6): `State.cfg` carries them, no operation changes them (rule R32),
and a statement about every state is a statement about every configuration (notes/assumptions/1.md). -/

namespace Sys2Proof

/-- `ESC_BYTE`, the reserved escape byte (rule R6, D2). -/
def escByte : Byte := 0x0D#8

/-- `TERM_BYTE`, the frame terminator byte (rule R6, D2). -/
def termByte : Byte := 0x0A#8

/-- `SEED`, the checksum seed (rules R6, R111). -/
def csumSeed : Half := 0xFFFF#16

/-- `MIN_FRAME_LEN`, the smallest unescaped frame length PARSE accepts (rules R6, R161). -/
def minFrameLen : Nat := 8

/-- `HDR_LEN`, the length of the unescaped log header (rules R6, R73). -/
def hdrLen : Nat := 13

/-- `CSUM_FIELD_LEN`, the length of the checksum field (rules R6, R71). -/
def csumFieldLen : Nat := 4

/-- The OPEN parameters of rule R6, fixed while the block runs (rule R32). -/
structure Config where
  /-- `CAPACITY`, the size of the scratch buffer in bytes. -/
  capacity : Nat
  /-- `ERR_BASE`, the numeric base of the codec's own error codes. -/
  errBase : Nat
  /-- `LEN_W`, the width of a length operand in bits. -/
  lenW : Nat
  /-- `MAX_PAYLOAD`, which no rule reads (rule R6, D26). -/
  maxPayload : Nat
  /-- `MAX_SUBJECT`, which no rule reads (rule R6, D26). -/
  maxSubject : Nat
  deriving DecidableEq, Repr

/-- The premises on a configuration: `CAPACITY >= 1` and `ERR_BASE + 9 < 2^STATUS_W` (rules R6, R7, R249(a)). -/
abbrev Config.wf (c : Config) : Prop := 1 ≤ c.capacity ∧ c.errBase + 9 < 2 ^ 16

/-- `CUR_W = ceil(log2(CAPACITY + 1))`, the width of `rx_cursor` in bits (rules R6, R24): the number of binary digits
of `CAPACITY`. -/
def Config.curW (c : Config) : Nat := if c.capacity = 0 then 0 else Nat.log2 c.capacity + 1

/-- The values `State.reset` takes for the OPEN parameters; `LEN_W` has the default of rule R6, the others are named in
notes/assumptions/1.md (DESIGN CHOICE) and no statement rests on them. -/
def Config.default : Config :=
  { capacity := 64, errBase := 0x0100, lenW := 16, maxPayload := 0, maxSubject := 0 }

/-- Free value (93_implementation_defined.md U7): how many whole bursts of a TX operation cut by a hardware reset still
reached the wire, at the `n`-th such draw (notes/assumptions/5.md). -/
opaque Config.cutBursts : Nat → Nat

/-- Free value (93_implementation_defined.md U7): how many bytes of the next burst of a cut TX operation reached the
wire, at the `n`-th such draw (notes/assumptions/5.md). -/
opaque Config.cutBytes : Nat → Nat

end Sys2Proof
end

