-- ==== Sys2Proof/Syntax.lean ====
section
/-! DEFINITION. The operations of the codec as syntax: one constructor per row of spec/opcode_table.json (30_encoding.md
rules R76, R86 to R89; 44_parse_validate.md rule R160), and the encoded form in which each reaches the block. -/

namespace Sys2Proof

/-- The severity levels of a log frame; the enumeration is exhaustive (rule R84). -/
inductive Level where
  /-- debug, level field 0 -/
  | debug
  /-- info, level field 1 -/
  | info
  /-- error, level field 2 -/
  | error
  deriving DecidableEq, Repr

/-- One operation. A TX operation carries its operand byte range `m` (20_memory.md rule R55); a wire token is the unit
in which the receiver reads the wire (rule R76). -/
inductive Instr where
  /-- LIT: the one-byte token `b`, with `b != ESC_BYTE` (rules R76, R145). -/
  | lit (b : Byte)
  /-- ESCESC: the token `ESC_BYTE, ESC_BYTE` (rules R76, R144, R146). -/
  | escesc
  /-- EOF: the hard terminator `ESC_BYTE, TERM_BYTE` (rules R76, R144, R147). -/
  | eof
  /-- ESCBAD: the token `ESC_BYTE, x`, `x` neither `ESC_BYTE` nor `TERM_BYTE` (rules R76, R144, R148). -/
  | escbad (x : Byte)
  /-- CSUM: the checksum of `m` from a seed (41_checksum_engine.md rule R112). -/
  | csum (seed : Half) (m : Bytes)
  /-- ESC: escape `m` to the sink (40_byte_escaper.md rule R102). -/
  | esc (m : Bytes)
  /-- SENDLOG: build and send a log frame (42_frame_builder.md rule R121). -/
  | sendlog (level : Level) (m : Bytes)
  /-- SENDLOG.RSVD: SENDLOG with the reserved level 3 (rules R89, R126). -/
  | sendlogRsvd (m : Bytes)
  /-- TX.RSVD: the reserved TX command code (rule R89). -/
  | txRsvd (m : Bytes)
  /-- RXBYTE: feed one byte to the receiver (43_stream_reassembler.md rule R142). -/
  | rxbyte (b : Byte)
  /-- RXINIT: reset the receiver (43_stream_reassembler.md rule R141). -/
  | rxinit
  /-- PARSE: the internal operation that judges the accumulated frame (44_parse_validate.md rule R160). -/
  | parse
  deriving DecidableEq, Repr

/-- The encoded form of an operation: a TX command word with its byte range (rule R86), an RX command word (rule R87),
or the bytes of a wire token, first received first (rule R76). -/
inductive Packet where
  | txc (word : BitVec 20) (m : Bytes)
  | rxc (word : BitVec 9)
  | token (bytes : Bytes)
  deriving DecidableEq, Repr

end Sys2Proof
end

