-- ==== Sys2Proof/WellFormed.lean ====
section
/-! DEFINITION. Which terms of `Instr` are operations of the codec: the constraints the encodings put on operands. -/

namespace Sys2Proof

/-- A byte range the TX port can take: `len < 2^LEN_W` (20_memory.md rule R55). -/
def rangeFits (c : Config) (m : Bytes) : Bool := decide (m.length < 2 ^ c.lenW)

/-- Well-formedness of an operation: the constraints of the token table (rule R76) and of the byte range (rule R55). -/
def Instr.wf (c : Config) : Instr → Bool
  | .lit b => decide (b ≠ escByte)
  | .escesc => true
  | .eof => true
  | .escbad x => decide (x ≠ escByte) && decide (x ≠ termByte)
  | .csum _ m => rangeFits c m
  | .esc m => rangeFits c m
  | .sendlog _ m => rangeFits c m
  | .sendlogRsvd m => rangeFits c m
  | .txRsvd m => rangeFits c m
  | .rxbyte _ => true
  | .rxinit => true
  | .parse => true

end Sys2Proof
end

