-- ==== Sys2Proof/Decode.lean ====
section
/-! DEFINITION. The decoders (30_encoding.md sections 2 and 4) and, after them, the encoder written from the same tables. -/

namespace Sys2Proof

/-- Why a byte sequence is not one token. -/
inductive DecodeError where
  /-- There is no byte to read. -/
  | emptyStream
  /-- A lone `ESC_BYTE`: the token stays open until its second byte arrives (rule R77). -/
  | openToken
  /-- Bytes follow the token, so the sequence is not one token (rule R77). -/
  | trailingBytes
  deriving DecidableEq, Repr

/-- The level a 2-bit level field names; 3 names none (rule R84). -/
def levelOfField (f : BitVec 2) : Option Level :=
  if f = 0#2 then some .debug
  else if f = 1#2 then some .info
  else if f = 2#2 then some .error
  else none

/-- Bits `[1:0]` of a TX command word (rule R86). -/
def txOpField (w : BitVec 20) : BitVec 2 := w.extractLsb' 0 2

/-- Bits `[3:2]` of a TX command word (rules R86, R93). -/
def txLevelField (w : BitVec 20) : BitVec 2 := w.extractLsb' 2 2

/-- Bits `[19:4]` of a TX command word (rules R86, R93). -/
def txSeedField (w : BitVec 20) : Half := w.extractLsb' 4 16

/-- The operation a TX command word and its byte range start (rules R86, R88, R89). Fields an operation does not use
are ignored; `op = 3` and level 3 are the two reserved rows. -/
def decodeTx (w : BitVec 20) (m : Bytes) : Instr :=
  if txOpField w = 0#2 then .csum (txSeedField w) m
  else if txOpField w = 1#2 then .esc m
  else if txOpField w = 2#2 then
    match levelOfField (txLevelField w) with
    | some level => .sendlog level m
    | none => .sendlogRsvd m
  else .txRsvd m

/-- The operation an RX command word starts; every word is legal (rule R87). -/
def decodeRx (w : BitVec 9) : Instr :=
  if w.extractLsb' 8 1 = 1#1 then .rxinit else .rxbyte (w.extractLsb' 0 8)

/-- The two-byte token whose second byte is `x`; the tests are made in the order of rule R142: escape byte first,
terminator byte second (rules R76, R146 to R148). -/
def escapedToken (x : Byte) : Instr :=
  if x = escByte then .escesc else if x = termByte then .eof else .escbad x

/-- The first token of a byte sequence that starts at a token boundary, and the bytes after it (rules R76, R77). -/
def decodeToken : Bytes → Except DecodeError (Instr × Bytes)
  | [] => .error .emptyStream
  | b :: rest =>
    if b = escByte then
      match rest with
      | [] => .error .openToken
      | x :: rest' => .ok (escapedToken x, rest')
    else .ok (.lit b, rest)

/-- The operation of an encoded form, or the reason it has none. PARSE has no encoding of its own (rule R160), so no
packet decodes to it. -/
def decode : Packet → Except DecodeError Instr
  | .txc w m => .ok (decodeTx w m)
  | .rxc w => .ok (decodeRx w)
  | .token bs =>
    match decodeToken bs with
    | .ok (i, []) => .ok i
    | .ok (_, _ :: _) => .error .trailingBytes
    | .error e => .error e

/-- What the RX path reads next from a stream of bytes `b :: bs`: at a token boundary (`rx_esc = 0`) the whole token
that stands there, and otherwise, or where the stream ends inside a token, the one byte by RXBYTE (rules R77, R155). -/
def cutStream (rxEsc : Bool) (b : Byte) (bs : Bytes) : Instr × Bytes :=
  if rxEsc then (.rxbyte b, bs)
  else
    match decodeToken (b :: bs) with
    | .ok (i, rest) => (i, rest)
    | .error _ => (.rxbyte b, bs)

/-! ## The encoder -/

/-- The level field of a level (rule R84). -/
def levelField : Level → BitVec 2
  | .debug => 0#2
  | .info => 1#2
  | .error => 2#2

/-- A TX command word: `seed` in `[19:4]`, `level` in `[3:2]`, `op` in `[1:0]` (rule R86). -/
def txWord (seedField : Half) (level op : BitVec 2) : BitVec 20 :=
  seedField.setWidth 20 <<< 4 ||| level.setWidth 20 <<< 2 ||| op.setWidth 20

/-- An RX command word: `init` in `[8]`, `byte` in `[7:0]` (rule R87). -/
def rxWord (init : BitVec 1) (byte : Byte) : BitVec 9 := init.setWidth 9 <<< 8 ||| byte.setWidth 9

/-- The encoded form of an operation, ignored fields zero; PARSE has none (rule R160). -/
def encode : Instr → Option Packet
  | .lit b => some (.token [b])
  | .escesc => some (.token [escByte, escByte])
  | .eof => some (.token [escByte, termByte])
  | .escbad x => some (.token [escByte, x])
  | .csum s m => some (.txc (txWord s 0#2 0#2) m)
  | .esc m => some (.txc (txWord 0#16 0#2 1#2) m)
  | .sendlog level m => some (.txc (txWord 0#16 (levelField level) 2#2) m)
  | .sendlogRsvd m => some (.txc (txWord 0#16 3#2 2#2) m)
  | .txRsvd m => some (.txc (txWord 0#16 0#2 3#2) m)
  | .rxbyte b => some (.rxc (rxWord 0#1 b))
  | .rxinit => some (.rxc (rxWord 1#1 0#8))
  | .parse => none

/-! ## The host's question: a word numbered as the opcode table numbers it -/

/-- The encoded form of the table word `w` of `nbits` bits in whole bytes: a one-byte token (8), an RX command word or
a two-byte token with the byte received first in bits `[15:8]` (16; the two do not overlap, since a two-byte token's
first byte is `0x0D` and an RX word is below `0x200`), a TX command word with an empty range (24). -/
def tablePacket (nbits w : Nat) : Option Packet :=
  if nbits ≤ 8 then
    if w < 2 ^ 8 then some (.token [BitVec.ofNat 8 w]) else none
  else if nbits ≤ 16 then
    if w < 2 ^ 9 then some (.rxc (BitVec.ofNat 9 w))
    else if w < 2 ^ 16 then some (.token [BitVec.ofNat 8 (w / 2 ^ 8), BitVec.ofNat 8 w])
    else none
  else if nbits ≤ 24 then
    if w < 2 ^ 20 then some (.txc (BitVec.ofNat 20 w) []) else none
  else none

/-- The operation the decoder reads from the table word `w` of `nbits` bits. The EOF and PARSE rows share one word;
it is EOF (notes/assumptions/4.md). -/
def decodeTableWord (nbits w : Nat) : Option Instr :=
  match tablePacket nbits w with
  | some p =>
    match decode p with
    | .ok i => some i
    | .error _ => none
  | none => none

end Sys2Proof
end

