-- ==== Sys2Proof/Machine/State.lean ====
section
/-! DEFINITION. The state of the codec (10_state.md rule R20) beside the record of its ports: the inputs the environment
has presented and not yet been served, and the outputs so far. Plain data throughout. -/

namespace Sys2Proof.Machine

/-- A byte memory: pairs of index and byte, indices strictly rising (`Memory.wf` in Machine/Ops.lean). An index that is
not listed has never been written and has no value (10_state.md rule R39). -/
abbrev Memory := List Host.Cell

/-- One answer of the sink to one burst (20_memory.md rule R57): the status, and, if it is a failure, how many bytes of
the burst had reached the wire (cut to the burst's length). After status `OK` the whole burst has, whatever
`delivered` says. -/
structure SinkAnswer where
  status : Half
  delivered : Nat
  deriving DecidableEq, Repr

/-- The transient registers of the TX operation in flight (rules R27, R28, R36). ESC has none (rule R29). -/
inductive TxUse where
  | esc
  /-- SENDLOG: the accumulator `csum_acc` (16 bits) with the injected checksum, and `hdr[0..12]`. -/
  | sendlog (csumAcc : Half) (hdr : Bytes)
  deriving DecidableEq, Repr

/-- What a TX operation has still to emit. The byte range is read one byte at a time, as the bursts are cut from it
(40_byte_escaper.md rule R102), so a byte that is not read yet may still change (70_reset_and_hazards.md rule R240). -/
structure Emission where
  /-- Bursts that need no more reading: the header's, and a doubled pair whose escape byte has been read. -/
  ready : List Burst
  /-- How many bytes of the range this reading has taken: the index `i` of rule R102, which with the bursts already issued
  gives the start of the run in progress (rule R36). -/
  read : Nat
  /-- The bytes of the range from `read` on, as the host holds them now. -/
  unread : Bytes
  /-- The bursts after the range: the hard terminator of SENDLOG. -/
  closing : List Burst
  deriving DecidableEq, Repr

/-- The TX path between steps: idle, or inside an operation whose burst `burst` the sink has not answered yet
(70_reset_and_hazards.md rule R246), with `rest` still to be emitted. -/
inductive TxPath where
  | idle
  | waiting (use : TxUse) (burst : Burst) (rest : Emission)
  deriving DecidableEq, Repr

/-- What a TX operation answers: `tx_status`, and for CSUM `tx_result` (rules R86, R112, R204). -/
structure TxAnswer where
  status : Half
  result : Option Half
  deriving DecidableEq, Repr

/-- The events of the RX path with the fields each carries (60_exceptions.md rule R202). -/
inductive RxEvent where
  | none
  | frameOk (len : Nat) (type : Byte) (seqValid : Bool) (seq : Byte)
  | errChecksum (len : Nat)
  | errMalformed (len : Nat)
  | errOverflow (len : Nat)
  | errProtocol (len : Nat) (byte : Byte)
  | errHexdigit (len : Nat)
  deriving DecidableEq, Repr

/-- What the environment presents to the block (45_session_wrapper.md rule R187). -/
inductive Input where
  /-- A TX command word with its byte range. -/
  | tx (word : BitVec 20) (m : Bytes)
  /-- An RX command word. -/
  | rx (word : BitVec 9)
  /-- A chunk of received bytes: the pseudo-operation RXCHUNK (30_encoding.md rule R92). -/
  | chunk (bytes : Bytes)
  /-- An answer of the sink. -/
  | sink (answer : SinkAnswer)
  /-- The host changes byte `i` of the byte range of the TX operation in flight, against its duty (rules R187, R240; U17). -/
  | msgWrite (i : Nat) (v : Byte)
  /-- The host writes `buf[i]`, against its duty (rule R237, U17). -/
  | bufWrite (i : Nat) (v : Byte)
  /-- The hardware reset input (70_reset_and_hazards.md rule R230). -/
  | reset
  deriving DecidableEq, Repr

/-- The whole state. -/
structure State where
  /-- The OPEN parameters (00_scope.md rule R6); no step changes them (rule R32). -/
  cfg : Config
  /-- `rx_esc`: `false` is `NORMAL` (0), `true` is `ESCAPING` (1) (rule R23). -/
  rxEsc : Bool
  /-- `rx_cursor`, `0..CAPACITY` (rule R24). -/
  rxCursor : Nat
  /-- `buf[0..CAPACITY-1]` (rule R26). -/
  buf : Memory
  /-- The TX path with its transient `csum_acc` and `hdr` (rules R27, R28, R36). -/
  tx : TxPath
  /-- The environment's: the sink's answers not yet taken, one per burst, in order (rule R57). -/
  sinkAnswers : List SinkAnswer
  /-- Output record: every burst presented to the sink, oldest first (rule R56). -/
  bursts : List Burst
  /-- Output record: the wire, every byte the sink has accepted, in order (rule R58). -/
  wire : Bytes
  /-- Output record: the answer of every TX operation that has ended, oldest first (rule R204). -/
  txAnswers : List TxAnswer
  /-- Output record: the event of every RX operation, oldest first (rule R201). No rule reads it back. -/
  rxEvents : List RxEvent
  /-- The environment's: what it presents next, in order (rule R187). -/
  inbox : List Input
  /-- The model's own: how many free values have been drawn (notes/assumptions/5.md). -/
  draws : Nat
  deriving DecidableEq, Repr

/-- Why a step has no next state. Every constructor is safe: the spec gives no behaviour there. -/
inductive Fault where
  /-- A second TX command while one is in flight (rule R236; U6: stuck). Raised by every TX operation. Safe. -/
  | txBusy
  /-- An access to `buf[i]` with `i >= CAPACITY` (rule R51: not a behaviour of the block; unreachable by rule R25).
  Raised by RXBYTE, the tokens and PARSE. Safe. -/
  | bufOutOfBounds (i : Nat)
  /-- A read of `buf[i]` before anything was written there (rule R39: unwritten, no value; unreachable). Raised by
  PARSE and the operations that run it. Safe. -/
  | bufUnwritten (i : Nat)
  deriving DecidableEq, Repr

/-- Why an operation has no meaning in the model. -/
inductive Refusal where
  /-- Raised by an arm of `exec` whose operation has no meaning yet; no arm does. Safe. -/
  | notModelled (mnemonic : String)
  deriving DecidableEq, Repr

/-- The state after reset (rules R40, R230) of a block with configuration `c`: `rx_esc = 0`, `rx_cursor = 0`, no byte of
`buf` with a value, the TX path idle, no output yet, nothing presented. -/
def State.resetWith (c : Config) : State where
  cfg := c
  rxEsc := false
  rxCursor := 0
  buf := []
  tx := .idle
  sinkAnswers := []
  bursts := []
  wire := []
  txAnswers := []
  rxEvents := []
  inbox := []
  draws := 0

/-- The machine right after reset, with the configuration `Config.default`. -/
def State.reset : State := State.resetWith Config.default

end Sys2Proof.Machine
end

