-- ==== Sys2Proof/Machine/Operands.lean ====
section
/-! DEFINITION. The functions over operands: hex fields (30_encoding.md rules R80 to R84), the checksum (41_checksum_engine.md
rule R110), byte stuffing and its cut into bursts (40_byte_escaper.md rules R100, R101), the log header (rules R73, R122). -/

namespace Sys2Proof.Machine

/-! ## Hex fields -/

/-- `HexDigit(n)`: the upper-case hex digit of a nibble (rule R80). -/
def hexDigit (n : BitVec 4) : Byte :=
  if n ≤ 9#4 then 0x30#8 + n.setWidth 8 else 0x41#8 + (n.setWidth 8 - 10#8)

/-- `HexVal(c)`: the value of a hex digit of either case; no value outside the 22 digits (rule R81, U2). -/
def hexVal (c : Byte) : Option (BitVec 4) :=
  if 0x30#8 ≤ c ∧ c ≤ 0x39#8 then some ((c - 0x30#8).setWidth 4)
  else if 0x41#8 ≤ c ∧ c ≤ 0x46#8 then some ((c - 0x37#8).setWidth 4)
  else if 0x61#8 ≤ c ∧ c ≤ 0x66#8 then some ((c - 0x57#8).setWidth 4)
  else none

/-- `IsHex(c)` (rule R81). -/
def isHex (c : Byte) : Bool := (hexVal c).isSome

/-- `Hex4(v)`: four upper-case hex digits, most significant nibble first (rule R82). -/
def hex4 (v : Half) : Bytes :=
  [hexDigit (v.extractLsb' 12 4), hexDigit (v.extractLsb' 8 4), hexDigit (v.extractLsb' 4 4), hexDigit (v.extractLsb' 0 4)]

/-- `Unhex4(c0, c1, c2, c3)`, most significant nibble first; no value unless all four are hex digits (rule R83). -/
def unhex4 (c0 c1 c2 c3 : Byte) : Option Half :=
  match hexVal c0, hexVal c1, hexVal c2, hexVal c3 with
  | some a, some b, some c, some d =>
    some ((a.setWidth 16 <<< 12) ||| (b.setWidth 16 <<< 8) ||| (c.setWidth 16 <<< 4) ||| d.setWidth 16)
  | _, _, _, _ => none

/-- `Unhex2(c0, c1)`: shift and combine (rule R83, 90_conflicts.md C3). -/
def unhex2 (c0 c1 : Byte) : Option Byte :=
  match hexVal c0, hexVal c1 with
  | some a, some b => some ((a.setWidth 8 <<< 4) ||| b.setWidth 8)
  | _, _ => none

/-! ## The checksum -/

/-- `Csum(seed, s)`: the 16-bit wrap-around sum of the bytes, each taken as unsigned (rule R110). -/
def csum (seed : Half) (s : Bytes) : Half := s.foldl (fun acc b => acc + b.setWidth 16) seed

/-! ## Byte stuffing -/

/-- `Escape(s)`: every `ESC_BYTE` doubled, every other byte as it is (rule R100). -/
def escape : Bytes → Bytes
  | [] => []
  | b :: t => if b = escByte then escByte :: escByte :: escape t else b :: escape t

/-- The bursts of a run: one if it has a byte, none if it is empty (rules R101, R56). -/
def flushRun (run : Bytes) : List Burst := if run = [] then [] else [run]

/-- The bursts of the loop of `EscEmit` (rule R102) on a range that does not change, with `run` the bytes `m[start..i)` not yet written. -/
def escBurstsFrom (run : Bytes) : Bytes → List Burst
  | [] => flushRun run
  | b :: t =>
    if b = escByte then flushRun run ++ [escByte, escByte] :: escBurstsFrom [] t
    else escBurstsFrom (run ++ [b]) t

/-- `EscBursts(s)`: maximal runs, and one burst for each doubled escape byte (rule R101). -/
def escBursts (m : Bytes) : List Burst := escBurstsFrom [] m

/-- The loop of `EscEmit` (rule R102) up to its next `SinkWrite`: the burst presented there and what is left after it, with
`read` bytes read and `run` the bytes `m[start..i)`. Where the range gives no more burst, the first of `closing`. -/
def emitFrom (closing : List Burst) (read : Nat) (run : Bytes) : Bytes → Option (Burst × Emission)
  | [] =>
    match run, closing with
    | [], [] => none
    | [], b :: rest => some (b, { ready := [], read := read, unread := [], closing := rest })
    | _ :: _, _ => some (run, { ready := [], read := read, unread := [], closing := closing })
  | b :: t =>
    if b = escByte then
      match run with
      | [] => some ([escByte, escByte], { ready := [], read := read + 1, unread := t, closing := closing })
      | _ :: _ => some (run, { ready := [[escByte, escByte]], read := read + 1, unread := t, closing := closing })
    else emitFrom closing (read + 1) (run ++ [b]) t

/-- The next burst of an emission and what is left after it. -/
def Emission.next (e : Emission) : Option (Burst × Emission) :=
  match e.ready with
  | b :: rest => some (b, { e with ready := rest })
  | [] => emitFrom e.closing e.read [] e.unread

/-- The bursts an emission issues if no byte changes any more. -/
def Emission.bursts (e : Emission) : List Burst := e.ready ++ escBursts e.unread ++ e.closing

/-- The host changes byte `i` of the range: a byte already read is not read again, and an index beyond the range names no
byte (rule R240, U17: the pass reads whatever bytes are there). -/
def Emission.change (e : Emission) (i : Nat) (v : Byte) : Emission :=
  if i < e.read then e else { e with unread := e.unread.set (i - e.read) v }

/-- The 2-byte hard terminator, escape byte first (rules R53, R70). -/
def hardTerminator : Bytes := [escByte, termByte]

/-! ## The log frame -/

/-- The level tag: "DBG", "INF" or "ERR" (rule R84). -/
def levelTag : Level → Bytes
  | .debug => [0x44#8, 0x42#8, 0x47#8]
  | .info => [0x49#8, 0x4E#8, 0x46#8]
  | .error => [0x45#8, 0x52#8, 0x52#8]

/-- Header bytes 4 to 12: " LOG ", the level tag, a space (rules R73, R121). -/
def logHeaderTail (level : Level) : Bytes :=
  [0x20#8, 0x4C#8, 0x4F#8, 0x47#8, 0x20#8] ++ levelTag level ++ [0x20#8]

/-- The checksum SENDLOG injects: header bytes 4 to 12, then the message (rules R121 step 2, R123). -/
def logCsum (level : Level) (m : Bytes) : Half := csum (csum csumSeed (logHeaderTail level)) m

/-- `hdr[0..12]` with the checksum injected; the placeholder of step 1 is never read (rule R122, D18). -/
def logHeader (level : Level) (m : Bytes) : Bytes := hex4 (logCsum level m) ++ logHeaderTail level

/-- The unescaped log frame (rule R73). -/
def logFrame (level : Level) (m : Bytes) : Bytes := logHeader level m ++ m

/-- The bursts of SENDLOG on a message that does not change: header and message through the escaper in two invocations, then the terminator directly
(rules R121 step 4, R124). -/
def logBursts (level : Level) (m : Bytes) : List Burst :=
  escBursts (logHeader level m) ++ escBursts m ++ [hardTerminator]

/-- What ESC emits: its range (rule R102). -/
def escEmission (m : Bytes) : Emission := { ready := [], read := 0, unread := m, closing := [] }

/-- What SENDLOG emits after its checksum pass: the header and the terminator are its own, the message is read a second
time (rules R55, R121 step 4). -/
def logEmission (level : Level) (m : Bytes) : Emission :=
  { ready := escBursts (logHeader level m), read := 0, unread := m, closing := [hardTerminator] }

/-- A frame on the wire (rule R70). -/
def wireFrame (f : Bytes) : Bytes := escape f ++ hardTerminator

end Sys2Proof.Machine
end

