-- ==== Sys2Proof/Machine/Flags.lean ====
section
/-! DEFINITION. What the codec reports: the status codes (60_exceptions.md rule R206) and the event word (rule R203). The
codec's only flag, `rx_esc`, is a field of `State` written in Machine/Ops.lean and Machine/Rx.lean (10_state.md rules R23, R33). -/

namespace Sys2Proof.Machine

/-! ## Statuses -/

/-- `OK = 0` (rule R204). -/
def okStatus : Half := 0#16

/-- The codec's own error kinds, in the order of their codes (rule R206). -/
inductive ErrorKind where
  | null
  | lock
  | checksum
  | malformed
  | overflow
  | protocol
  | hexdigit
  | level
  | badcmd
  deriving DecidableEq, Repr

/-- The offset of an error kind from `ERR_BASE` (rule R206). -/
def ErrorKind.offset : ErrorKind → Nat
  | .null => 1
  | .lock => 2
  | .checksum => 3
  | .malformed => 4
  | .overflow => 5
  | .protocol => 6
  | .hexdigit => 7
  | .level => 8
  | .badcmd => 9

/-- The status code of an error kind (rule R206). -/
def ErrorKind.code (c : Config) (k : ErrorKind) : Half := BitVec.ofNat 16 (c.errBase + k.offset)

/-- The status equivalent of an event, which the host uses and the block never puts on `tx_status` (rule R206). -/
def RxEvent.statusEquivalent : RxEvent → Option ErrorKind
  | .none => Option.none
  | .frameOk _ _ _ _ => Option.none
  | .errChecksum _ => some .checksum
  | .errMalformed _ => some .malformed
  | .errOverflow _ => some .overflow
  | .errProtocol _ _ => some .protocol
  | .errHexdigit _ => some .hexdigit

/-! ## The event word -/

/-- The kind code of an event (rule R202); 7 is reserved and never output. -/
def RxEvent.kind : RxEvent → BitVec 3
  | .none => 0#3
  | .frameOk _ _ _ _ => 1#3
  | .errChecksum _ => 2#3
  | .errMalformed _ => 3#3
  | .errOverflow _ => 4#3
  | .errProtocol _ _ => 5#3
  | .errHexdigit _ => 6#3

/-- The field `len`; 0 where the event carries none (rule R203). -/
def RxEvent.lenField : RxEvent → Nat
  | .none => 0
  | .frameOk n _ _ _ => n
  | .errChecksum n => n
  | .errMalformed n => n
  | .errOverflow n => n
  | .errProtocol n _ => n
  | .errHexdigit n => n

/-- The field `type`; 0 where the event carries none (rule R203). -/
def RxEvent.typeField : RxEvent → Byte
  | .frameOk _ t _ _ => t
  | .none | .errChecksum _ | .errMalformed _ | .errOverflow _ | .errProtocol _ _ | .errHexdigit _ => 0#8

/-- The field `seq_valid`; 0 where the event carries none (rule R203). -/
def RxEvent.seqValidField : RxEvent → Bool
  | .frameOk _ _ v _ => v
  | .none | .errChecksum _ | .errMalformed _ | .errOverflow _ | .errProtocol _ _ | .errHexdigit _ => false

/-- The field `seq`; 0 where the event carries none (rule R203). -/
def RxEvent.seqField : RxEvent → Byte
  | .frameOk _ _ _ q => q
  | .none | .errChecksum _ | .errMalformed _ | .errOverflow _ | .errProtocol _ _ | .errHexdigit _ => 0#8

/-- The field `byte`; 0 where the event carries none (rule R203). -/
def RxEvent.byteField : RxEvent → Byte
  | .errProtocol _ b => b
  | .none | .frameOk _ _ _ _ | .errChecksum _ | .errMalformed _ | .errOverflow _ | .errHexdigit _ => 0#8

/-- The event word on `rx_event`, of `3 + CUR_W + 8 + 1 + 8 + 8` bits: `kind`, `len` (`CUR_W` bits), `type`, `seq_valid`,
`seq`, `byte`, from the least significant end (rule R203). -/
def RxEvent.word (c : Config) (e : RxEvent) : BitVec (28 + c.curW) :=
  e.kind.setWidth _ ||| (BitVec.ofNat c.curW e.lenField).setWidth _ <<< 3 |||
    e.typeField.setWidth _ <<< (3 + c.curW) ||| (BitVec.ofBool e.seqValidField).setWidth _ <<< (11 + c.curW) |||
    e.seqField.setWidth _ <<< (12 + c.curW) ||| e.byteField.setWidth _ <<< (20 + c.curW)

end Sys2Proof.Machine
end

