-- ==== Sys2Proof/Machine/Ops.lean ====
section
/-! DEFINITION. The operations the meanings share: the scratch buffer (20_memory.md rule R51), the report of an event and the
session reset (60_exceptions.md rule R209, the codec's whole "trap entry"), and the hand-over of bursts to the sink
(20_memory.md rules R56, R57). -/

namespace Sys2Proof.Machine

/-! ## Byte memory -/

/-- What an index that is not listed reads as: nothing, for it was never written (10_state.md rule R39, D19;
notes/assumptions/2.md). -/
def Memory.unlisted : Option Byte := none

/-- The byte at index `i`. -/
def Memory.read : Memory → Nat → Option Byte
  | [], _ => Memory.unlisted
  | (a, v) :: t, i => if a = i then some v else Memory.read t i

/-- Put `v` at index `i`, keeping the indices strictly rising. -/
def Memory.write : Memory → Nat → Byte → Memory
  | [], i, v => [(i, v)]
  | (a, w) :: t, i, v =>
    if i < a then (i, v) :: (a, w) :: t
    else if i = a then (i, v) :: t
    else (a, w) :: Memory.write t i v

/-- The canonical form: indices strictly rising. Since an unlisted index has no value, no entry can equal it. -/
abbrev Memory.wf (m : Memory) : Prop := m.Pairwise (fun x y => x.1 < y.1)

/-! ## The scratch buffer -/

/-- `MemRead(i, 1)`: defined for `i < CAPACITY` only, and only where a byte was written (rules R51, R39). -/
def State.bufRead (s : State) (i : Nat) : Except Fault Byte :=
  if i < s.cfg.capacity then
    match s.buf.read i with
    | some v => .ok v
    | none => .error (.bufUnwritten i)
  else .error (.bufOutOfBounds i)

/-- The `k` bytes of the scratch buffer from index `i`, in index order. -/
def State.bufRange (s : State) (i : Nat) : Nat → Except Fault Bytes
  | 0 => .ok []
  | k + 1 => do
    let v ← s.bufRead i
    let t ← s.bufRange (i + 1) k
    .ok (v :: t)

/-- `buf[rx_cursor] <- v; rx_cursor <- rx_cursor + 1` (rules R24, R145). -/
def State.push (s : State) (v : Byte) : State :=
  { s with buf := s.buf.write s.rxCursor v, rxCursor := s.rxCursor + 1 }

/-- Append `v` at the cursor and advance it, defined for `rx_cursor < CAPACITY` only (rules R24, R51). -/
def State.append (s : State) (v : Byte) : Except Fault State :=
  if s.rxCursor < s.cfg.capacity then .ok (s.push v) else .error (.bufOutOfBounds s.rxCursor)

/-- The host's read of `buf[i]` between RX operations: no side effect, and no value where nothing was written (rule R39). -/
def State.hostRead (s : State) (i : Nat) : Option Byte := s.buf.read i

/-- The host writes `buf[i]` between RX operations, which it must not (rule R237): the block does not detect it, and PARSE
reads whatever bytes are there (U17). An index outside `0..CAPACITY-1` names no byte of `buf`. -/
def State.hostWrite (s : State) (i : Nat) (v : Byte) : State :=
  if i < s.cfg.capacity then { s with buf := s.buf.write i v } else s

/-! ## Events -/

/-- `raise ev`: put the event on `rx_event` (rules R11, R201). No control is transferred and nothing is saved (rule R209). -/
def State.raise (s : State) (ev : RxEvent) : State := { s with rxEvents := s.rxEvents ++ [ev] }

/-- The event of the latest RX operation, which replaced the one before it (rules R213, R244). -/
def State.rxEvent (s : State) : Option RxEvent := s.rxEvents.getLast?

/-- `SessionReset()`: exactly `rx_cursor <- 0` and `rx_esc <- 0` (43_stream_reassembler.md rule R149). -/
def State.sessionReset (s : State) : State := { s with rxCursor := 0, rxEsc := false }

/-- Write the flag `rx_esc` (rule R23). -/
def State.setEsc (s : State) (e : Bool) : State := { s with rxEsc := e }

/-- An RX operation either has its next state or met an access the block cannot make. -/
def rxOutcome : Except Fault State → Host.Outcome State Fault Refusal
  | .ok s => .next s
  | .error f => .fault f

/-! ## The sink -/

/-- How handing an emission to the sink ended: with a status, or waiting for the answer to `burst`. -/
inductive SinkEnd where
  | done (status : Half)
  | waiting (burst : Burst) (rest : Emission)
  deriving DecidableEq, Repr

/-- What handing bursts to the sink did: the bursts presented, the bytes that reached the wire, the answers left, the end. -/
structure SinkRun where
  issued : List Burst
  accepted : Bytes
  left : List SinkAnswer
  ended : SinkEnd
  deriving DecidableEq, Repr

/-- Present the bursts one after another, each only after the one before was answered `OK`; stop at the first failure
with the sink's own status, of which a part of the burst may have reached the wire (rules R56, R57, R205). Where no
answer has come yet the operation waits (rule R246). -/
def runSink : Emission → List SinkAnswer → SinkRun
  | e, [] =>
    match e.next with
    | none => { issued := [], accepted := [], left := [], ended := .done okStatus }
    | some (b, rest) => { issued := [b], accepted := [], left := [], ended := .waiting b rest }
  | e, a :: as =>
    match e.next with
    | none => { issued := [], accepted := [], left := a :: as, ended := .done okStatus }
    | some (b, rest) =>
      if a.status = okStatus then
        { issued := b :: (runSink rest as).issued, accepted := b ++ (runSink rest as).accepted,
          left := (runSink rest as).left, ended := (runSink rest as).ended }
      else { issued := [b], accepted := b.take a.delivered, left := as, ended := .done a.status }

/-- Record what the sink run did. An operation that ended outputs its status and leaves the path idle, dropping its
transient registers (rules R36, R204, R248); one that waits keeps them. -/
def State.recordSink (s : State) (use : TxUse) (r : SinkRun) : State :=
  match r.ended with
  | .done status =>
    { s with
      bursts := s.bursts ++ r.issued, wire := s.wire ++ r.accepted, sinkAnswers := r.left, tx := .idle,
      txAnswers := s.txAnswers ++ [{ status := status, result := none }] }
  | .waiting burst rest =>
    { s with
      bursts := s.bursts ++ r.issued, wire := s.wire ++ r.accepted, sinkAnswers := r.left,
      tx := .waiting use burst rest }

/-- Run a TX operation that hands the bursts of `e` to the sink and has the transient registers `use`. -/
def State.emit (s : State) (use : TxUse) (e : Emission) : State :=
  s.recordSink use (runSink e s.sinkAnswers)

/-- End a TX operation that issues no burst (rules R89, R112, R126). -/
def State.answer (s : State) (status : Half) (result : Option Half) : State :=
  { s with txAnswers := s.txAnswers ++ [{ status := status, result := result }] }

/-- Start a TX operation: the path takes one at a time, and what a second command does while one is in flight is not
specified (rules R63, R236; U6: stuck). -/
def State.startTx (s : State) (run : State → State) : Host.Outcome State Fault Refusal :=
  match s.tx with
  | .idle => .next (run s)
  | .waiting _ _ _ => .fault .txBusy

/-- An answer of the sink arrives: the operation that waits for one goes on with it (its burst was presented before, so it
is not presented again); with no operation waiting, the answer is the one a later burst will get (rule R57). -/
def State.takeSinkAnswer (s : State) (a : SinkAnswer) : State :=
  match s.tx with
  | .idle => { s with sinkAnswers := s.sinkAnswers ++ [a] }
  | .waiting use burst rest =>
    let r := runSink { rest with ready := burst :: rest.ready } (s.sinkAnswers ++ [a])
    s.recordSink use { r with issued := r.issued.tail }

/-- The host changes byte `i` of the range of the TX operation in flight: what the operation has not read yet it will read
as it is then (rule R240, U17). With no operation in flight no range is in use. -/
def State.changeMessage (s : State) (i : Nat) (v : Byte) : State :=
  match s.tx with
  | .idle => s
  | .waiting use burst rest => { s with tx := .waiting use burst (rest.change i v) }

/-! ## The hardware reset -/

/-- What a hardware reset leaves of the TX path. It has no persistent state, so an idle path stays idle (rule R230). An
operation in flight is cut: some prefix of its remaining bursts, the last one possibly in part, still reaches the wire,
and no status is output (rule R231; U7: any value, here the free values of Config; notes/assumptions/5.md). -/
def State.cutTx (s : State) : State :=
  match s.tx with
  | .idle => s
  | .waiting _ burst rest =>
    { s with
      tx := .idle
      bursts := s.bursts ++ rest.bursts.take (Config.cutBursts s.draws)
      wire := s.wire ++ ((burst :: rest.bursts).take (Config.cutBursts s.draws)).flatten
        ++ (((burst :: rest.bursts).drop (Config.cutBursts s.draws)).headD []).take (Config.cutBytes s.draws)
      draws := s.draws + 1 }

/-- The hardware reset input: on the RX path exactly RXINIT (rule R230, D24); on the TX path `cutTx`. -/
def State.hardReset (s : State) : State := (s.cutTx.sessionReset).raise .none

end Sys2Proof.Machine
end

