-- ==== Sys2Proof/Machine/Parse.lean ====
section
/-! DEFINITION. Message Parse and Validate: the internal operation PARSE (44_parse_validate.md). -/

namespace Sys2Proof.Machine

/-- The sequence fields of an accepted frame from its bytes 6 and 7 (rule R165). -/
def seqFields (q6 q7 : Byte) : Bool × Byte :=
  match unhex2 q6 q7 with
  | some v => (true, v)
  | none => (false, 0x00#8)

/-- `PARSE() -> event` on `buf[0..rx_cursor)`: length, then hex digits, then checksum, then type and sequence (rules R160
to R167). A pure function of the state: PARSE writes nothing. -/
def parse (s : State) : Except Fault RxEvent :=
  if s.rxCursor < minFrameLen then .ok (.errMalformed s.rxCursor)
  else do
    let c0 ← s.bufRead 0
    let c1 ← s.bufRead 1
    let c2 ← s.bufRead 2
    let c3 ← s.bufRead 3
    match unhex4 c0 c1 c2 c3 with
    | none => .ok (.errHexdigit s.rxCursor)
    | some rxSum => do
      let body ← s.bufRange csumFieldLen (s.rxCursor - csumFieldLen)
      if rxSum = csum csumSeed body then do
        let type ← s.bufRead 5
        let q6 ← s.bufRead 6
        let q7 ← s.bufRead 7
        .ok (.frameOk s.rxCursor type (seqFields q6 q7).1 (seqFields q6 q7).2)
      else .ok (.errChecksum s.rxCursor)

/-- PARSE: its result is one event; it writes no state (rule R160). Only the EOF token starts it in the block; run on
its own, its event is put on the record as an RX operation's is (notes/assumptions/4.md). -/
def execParse (s : State) : Host.Outcome State Fault Refusal :=
  rxOutcome ((parse s).map s.raise)

end Sys2Proof.Machine
end

