-- ==== Sys2Proof/Machine/Rx.lean ====
section
/-! DEFINITION. The Stream Reassembler: RXBYTE and RXINIT (43_stream_reassembler.md). -/

namespace Sys2Proof.Machine

/-- `NORMAL`, before the byte is looked at: if the buffer is full, the event becomes `ERR_OVERFLOW` and the session is
reset (rule R143). -/
def State.fullTest (s : State) : RxEvent × State :=
  if s.cfg.capacity ≤ s.rxCursor then (.errOverflow s.rxCursor, s.sessionReset) else (.none, s)

/-- RXBYTE in state `NORMAL`: the full test, then rule R144 for the escape byte and rule R145 for any other. -/
def rxNormal (b : Byte) (s : State) : Except Fault State :=
  if b = escByte then .ok ((s.fullTest.2.setEsc true).raise s.fullTest.1)
  else (s.fullTest.2.append b).map (fun t => t.raise s.fullTest.1)

/-- RXBYTE in state `ESCAPING`, the escape byte tested first, the terminator byte second (rules R146, R147, R148). PARSE
runs on the cursor before the reset (rule R147). -/
def rxEscaping (b : Byte) (s : State) : Except Fault State :=
  if b = escByte then ((s.setEsc false).append escByte).map (fun t => t.raise .none)
  else if b = termByte then (parse s).map (fun ev => s.sessionReset.raise ev)
  else .ok (s.sessionReset.raise (.errProtocol s.rxCursor b))

/-- RXBYTE: one indivisible transition with exactly one event (rules R142, R150, R61). -/
def rxByte (b : Byte) (s : State) : Except Fault State :=
  if s.rxEsc then rxEscaping b s else rxNormal b s

/-- RXCHUNK: the bytes in order, each by RXBYTE; the empty chunk does nothing (30_encoding.md rule R92). -/
def rxChunk : Bytes → State → Except Fault State
  | [], s => .ok s
  | b :: t, s => (rxByte b s).bind (rxChunk t)

/-- RXBYTE `b` (rule R142). -/
def execRxbyte (b : Byte) (s : State) : Host.Outcome State Fault Refusal := rxOutcome (rxByte b s)

/-- RXINIT: the session reset and the event `NONE`; `buf` is not written (rule R141). -/
def execRxinit (s : State) : Host.Outcome State Fault Refusal := .next (s.sessionReset.raise .none)

end Sys2Proof.Machine
end

