-- ==== Sys2Proof/Machine/Token.lean ====
section
/-! DEFINITION. The wire tokens (30_encoding.md rules R76, R77): a token reaches the block as its bytes, first received first,
each by RXBYTE. At a token boundary (`rx_esc = 0`) that is the handling the token table names. -/

namespace Sys2Proof.Machine

/-- LIT `b`: the literal byte `b` (rules R76, R145). -/
def execLit (b : Byte) (s : State) : Host.Outcome State Fault Refusal := rxOutcome (rxChunk [b] s)

/-- ESCESC: one literal `ESC_BYTE` (rules R76, R144, R146). -/
def execEscesc (s : State) : Host.Outcome State Fault Refusal := rxOutcome (rxChunk [escByte, escByte] s)

/-- EOF: end of frame; PARSE and session reset (rules R76, R144, R147). -/
def execEof (s : State) : Host.Outcome State Fault Refusal := rxOutcome (rxChunk [escByte, termByte] s)

/-- ESCBAD `x`: protocol violation and session reset (rules R76, R144, R148). -/
def execEscbad (x : Byte) (s : State) : Host.Outcome State Fault Refusal := rxOutcome (rxChunk [escByte, x] s)

end Sys2Proof.Machine
end

