-- ==== Sys2Proof/Machine/Tx.lean ====
section
/-! DEFINITION. The TX path: CSUM (41_checksum_engine.md), ESC (40_byte_escaper.md), SENDLOG and the reserved TX commands
(42_frame_builder.md, 30_encoding.md rule R89). None reads or writes RX state (10_state.md rule R21). -/

namespace Sys2Proof.Machine

/-- CSUM: `tx_result = Csum(seed, m)`, status `OK`, no burst (rule R112). -/
def execCsum (sd : Half) (m : Bytes) (s : State) : Host.Outcome State Fault Refusal :=
  s.startTx (fun t => t.answer okStatus (some (csum sd m)))

/-- ESC: hand `EscBursts(m)` to the sink, reading `m` on the way (rule R102). -/
def execEsc (m : Bytes) (s : State) : Host.Outcome State Fault Refusal :=
  s.startTx (fun t => t.emit .esc (escEmission m))

/-- SENDLOG: build the header, inject the checksum, hand header, message and hard terminator to the sink (rule R121). The
checksum pass reads `m` as the command brings it; the emission pass reads it again on the way (rules R55, R240). -/
def execSendlog (level : Level) (m : Bytes) (s : State) : Host.Outcome State Fault Refusal :=
  s.startTx (fun t => t.emit (.sendlog (logCsum level m) (logHeader level m)) (logEmission level m))

/-- SENDLOG with the reserved level: no burst, status `E_LEVEL` (rule R126). -/
def execSendlogRsvd (_m : Bytes) (s : State) : Host.Outcome State Fault Refusal :=
  s.startTx (fun t => t.answer (ErrorKind.level.code t.cfg) none)

/-- The reserved TX command code: no burst, status `E_BADCMD` (rule R89). -/
def execTxRsvd (_m : Bytes) (s : State) : Host.Outcome State Fault Refusal :=
  s.startTx (fun t => t.answer (ErrorKind.badcmd.code t.cfg) none)

end Sys2Proof.Machine
end

