-- ==== Sys2Proof/Machine/Dispatch.lean ====
section
/-! DEFINITION. One arm per operation; the meanings stand in Machine/Rx.lean, Token.lean, Parse.lean and Tx.lean. -/

namespace Sys2Proof.Machine

def exec (i : Instr) (s : State) : Host.Outcome State Fault Refusal :=
  match i with
  | .lit b => Sys2Proof.Machine.execLit b s
  | .escesc => Sys2Proof.Machine.execEscesc s
  | .eof => Sys2Proof.Machine.execEof s
  | .escbad x => Sys2Proof.Machine.execEscbad x s
  | .csum sd m => Sys2Proof.Machine.execCsum sd m s
  | .esc m => Sys2Proof.Machine.execEsc m s
  | .sendlog level m => Sys2Proof.Machine.execSendlog level m s
  | .sendlogRsvd m => Sys2Proof.Machine.execSendlogRsvd m s
  | .txRsvd m => Sys2Proof.Machine.execTxRsvd m s
  | .rxbyte b => Sys2Proof.Machine.execRxbyte b s
  | .rxinit => Sys2Proof.Machine.execRxinit s
  | .parse => Sys2Proof.Machine.execParse s

end Sys2Proof.Machine
end

