-- ==== Sys2Proof/Machine/Fetch.lean ====
section
/-! DEFINITION. What the block takes next from its ports (45_session_wrapper.md rule R187). It has no program counter and
fetches no program (10_state.md rule R31): the environment presents commands, and the block serves them in order. -/

namespace Sys2Proof.Machine

/-- What stands at the ports: an operation to run and the state once its command is taken, or something that is no
operation (nothing presented, an empty chunk, a sink answer, a write of the host, the reset input) and the state after it. -/
inductive Fetched where
  | op (i : Instr) (s : State)
  | other (s : State)
  deriving DecidableEq, Repr

/-- Take the front of the inbox. -/
def State.withInbox (s : State) (inputs : List Input) : State := { s with inbox := inputs }

/-- What is left of a chunk goes back in front; a chunk with no byte left is gone. -/
def pushChunk (left : Bytes) (rest : List Input) : List Input :=
  match left with
  | [] => rest
  | _ :: _ => .chunk left :: rest

/-- Take the next thing the environment presents. Nothing presented: the block waits, unchanged (70_reset_and_hazards.md
rule R248). A chunk gives the operation that stands at its front (rules R77, R92, R155). -/
def fetch (s : State) : Fetched :=
  match s.inbox with
  | [] => .other s
  | .tx w m :: rest => .op (decodeTx w m) (s.withInbox rest)
  | .rx w :: rest => .op (decodeRx w) (s.withInbox rest)
  | .chunk [] :: rest => .other (s.withInbox rest)
  | .chunk (b :: bs) :: rest =>
    .op (cutStream s.rxEsc b bs).1 (s.withInbox (pushChunk (cutStream s.rxEsc b bs).2 rest))
  | .sink a :: rest => .other ((s.withInbox rest).takeSinkAnswer a)
  | .msgWrite i v :: rest => .other ((s.withInbox rest).changeMessage i v)
  | .bufWrite i v :: rest => .other ((s.withInbox rest).hostWrite i v)
  | .reset :: rest => .other (s.withInbox rest).hardReset

/-- Present a packet ahead of whatever else is presented. A token is read as one only at a token boundary (rule R77), so
presenting one puts the receiver there. -/
def State.present (s : State) (p : Packet) : State :=
  match p with
  | .txc w m => s.withInbox (.tx w m :: s.inbox)
  | .rxc w => s.withInbox (.rx w :: s.inbox)
  | .token bs => (s.setEsc false).withInbox (.chunk bs :: s.inbox)

end Sys2Proof.Machine
end

