-- ==== Sys2Proof/Machine/Step.lean ====
section
/-! DEFINITION. One step: serve the next thing the environment presents. -/

namespace Sys2Proof.Machine

/-- One step of the block: the operation that stands at the ports runs whole (20_memory.md rules R61, R63). -/
def step (s : State) : Host.Outcome State Fault Refusal :=
  match fetch s with
  | .op i t => exec i t
  | .other t => .next t

/-- The state with the table word `w` of `nbits` bits presented so that the next step takes it (notes/assumptions/3.md). A
word that is no packet is not presented. -/
def State.withFetchWord (s : State) (nbits w : Nat) : State :=
  match tablePacket nbits w with
  | some p => s.present p
  | none => s

end Sys2Proof.Machine
end

