-- ==== Sys2Proof/Safety.lean ====
section
/-! DEFINITION. What holds of the block's state at all times, which states a run can reach, and what a safe step is, in the
terms the claims use. -/

namespace Sys2Proof.Machine

/-- The invariants of the RX state (10_state.md rule R25), with what they say of `buf`: the memory is canonical, lies
inside `0..CAPACITY-1`, and every byte below the cursor has been written. -/
structure RxInv (s : State) : Prop where
  cursor_le : s.rxCursor ≤ s.cfg.capacity
  esc_lt : s.rxEsc = true → s.rxCursor < s.cfg.capacity
  buf_wf : s.buf.wf
  buf_inside : ∀ c ∈ s.buf, c.1 < s.cfg.capacity
  written : ∀ i, i < s.rxCursor → (s.buf.read i).isSome = true

/-- What is true of the operation in flight on an idle or waiting TX path: it waits only for want of an answer; the burst
it waits for is the last one presented; no burst is empty (20_memory.md rule R56); the wire holds nothing but bytes of
the bursts before it, in order (rule R58); a SENDLOG holds its 13-byte header with the checksum of its accumulator in
the first four (rules R28, R82). -/
def TxInv (s : State) : Prop :=
  (∀ b ∈ s.bursts, b ≠ []) ∧
  match s.tx with
  | .idle => s.wire.Sublist s.bursts.flatten
  | .waiting use burst rest =>
    s.sinkAnswers = [] ∧ (∀ b ∈ rest.bursts, b ≠ []) ∧
    (∃ before, s.bursts = before ++ [burst] ∧ s.wire.Sublist before.flatten) ∧
    (∀ acc hdr, use = .sendlog acc hdr → hdr.length = hdrLen ∧ hdr.take csumFieldLen = hex4 acc)

/-- The invariant of the block: a legal configuration (00_scope.md rule R7) and the invariants of both paths. -/
structure BlockInv (s : State) : Prop where
  cfg_wf : s.cfg.wf
  rx : RxInv s
  tx : TxInv s

/-! ## Terms of the claims -/

/-- The operations of the TX path (60_exceptions.md rule R215); the others, PARSE among them, are the RX path's. -/
def onTx : Instr → Bool
  | .csum _ _ | .esc _ | .sendlog _ _ | .sendlogRsvd _ | .txRsvd _ => true
  | .lit _ | .escesc | .eof | .escbad _ | .rxbyte _ | .rxinit | .parse => false

/-- The RX path is as it was: its registers, every byte of `buf`, its events. -/
def SameRx (s t : State) : Prop :=
  t.rxEsc = s.rxEsc ∧ t.rxCursor = s.rxCursor ∧ (∀ i, t.buf.read i = s.buf.read i) ∧ t.rxEvents = s.rxEvents

/-- The TX path is as it was: the operation in flight, its answers, its bursts, the wire, the sink's answers. -/
def SameTx (s t : State) : Prop :=
  t.tx = s.tx ∧ t.txAnswers = s.txAnswers ∧ t.bursts = s.bursts ∧ t.wire = s.wire ∧ t.sinkAnswers = s.sinkAnswers

/-- What belongs to neither path is as it was: the configuration, the inputs not served, the count of free values. -/
def SameRest (s t : State) : Prop := t.cfg = s.cfg ∧ t.inbox = s.inbox ∧ t.draws = s.draws

/-- The scratch buffer holds exactly the unescaped bytes `f`: `rx_cursor = |f|` and `buf[0..|f|) = f`. -/
def Holds (s : State) (f : Bytes) : Prop :=
  s.rxCursor = f.length ∧ f.length ≤ s.cfg.capacity ∧ ∀ k (h : k < f.length), s.buf.read k = some f[k]

/-- The receiver is where a reset leaves it: `NORMAL`, cursor 0 (70_reset_and_hazards.md rule R230). -/
def RxAtReset (s : State) : Prop := s.rxEsc = false ∧ s.rxCursor = 0 ∧ 1 ≤ s.cfg.capacity

/-- Every answer of a list is `OK`. -/
def AllOk (as : List SinkAnswer) : Prop := ∀ a ∈ as, a.status = okStatus

/-- The index of `buf` that RXBYTE `b` stores to, with the expressions its meaning uses: the cursor after the full test
in `NORMAL`, the cursor itself in `ESCAPING` (43_stream_reassembler.md rules R145, R146). -/
def storeIndex (b : Byte) (s : State) : Option Nat :=
  if s.rxEsc then (if b = escByte then some s.rxCursor else none)
  else if b = escByte then none else some s.fullTest.2.rxCursor

/-- Two receivers that no later byte can tell apart: the same capacity, flag and cursor, and the same bytes below the
cursor (43_stream_reassembler.md rule R154). -/
def SameFrame (s t : State) : Prop :=
  t.cfg.capacity = s.cfg.capacity ∧ t.rxEsc = s.rxEsc ∧ t.rxCursor = s.rxCursor ∧
  ∀ i, i < s.rxCursor → t.buf.read i = s.buf.read i

/-- The states a block with configuration `c` can come to: reset, the environment presenting one more input, a step. -/
inductive Reachable (c : Config) : State → Prop where
  | reset : Reachable c (State.resetWith c)
  | presented (s : State) (input : Input) (h : Reachable c s) : Reachable c (s.withInbox (s.inbox ++ [input]))
  | stepped (s t : State) (h : Reachable c s) (hs : step s = .next t) : Reachable c t

/-- The environment breaks the duty of 70_reset_and_hazards.md rule R236: it presents a TX command while a TX operation is
in flight. -/
def TxOverlap (s : State) : Prop :=
  (∃ use burst rest, s.tx = .waiting use burst rest) ∧ ∃ w m rest, s.inbox = .tx w m :: rest

/-- A safe step: it has a next state. -/
def SafeStep (s : State) : Prop := ∃ t, step s = .next t

end Sys2Proof.Machine
end

