-- ==== Sys2Proof/Certificates/Slice0/Obligations.lean ====
section
/-! DEFINITION. The statements about the model, for the provers; OBLIGATIONS.json names each with its rules. The records
`bursts`, `wire`, `txAnswers` and `rxEvents` are how the model shows the block's outputs (notes/assumptions/6.md). -/

open Sys2Proof Sys2Proof.Machine

/-! ## Encoding -/

/-- Every well-formed operation but PARSE has an encoding, and it decodes to the operation, with every operand. -/
def Obligations.DecodeEncodeRoundTrip : Prop :=
  ∀ (c : Config) (i : Instr), i.wf c = true → i ≠ .parse → ∃ p, encode i = some p ∧ decode p = .ok i

/-- PARSE cannot be issued: it alone has no encoding, nothing decodes to it and no fetch gives it. -/
def Obligations.ParseCannotBeIssued : Prop :=
  (∀ i, encode i = none ↔ i = .parse) ∧ (∀ p, decode p ≠ .ok .parse) ∧
  (∀ nbits w, decodeTableWord nbits w ≠ some .parse) ∧ ∀ s t, fetch s ≠ .op .parse t

/-- What a packet decodes to encodes again to a packet of the same port that decodes alike; a token to the same bytes, a
TX command with the same range. -/
def Obligations.DecodedOperationsReencode : Prop :=
  ∀ p i, decode p = .ok i → ∃ q, encode i = some q ∧ decode q = .ok i ∧
    (match p with
     | .token _ => q = p
     | .txc _ m => ∃ w, q = .txc w m
     | .rxc _ => ∃ w, q = .rxc w)

/-- The fields of the command words, each in its place, and those an operation does not use have no effect. -/
def Obligations.CommandWordFields : Prop :=
  (∀ w, txWord (txSeedField w) (txLevelField w) (txOpField w) = w) ∧
  (∀ sd lv m, decodeTx (txWord sd lv 0#2) m = .csum sd m ∧ decodeTx (txWord sd lv 1#2) m = .esc m ∧
    decodeTx (txWord sd lv 3#2) m = .txRsvd m) ∧
  (∀ sd m, decodeTx (txWord sd 0#2 2#2) m = .sendlog .debug m ∧ decodeTx (txWord sd 1#2 2#2) m = .sendlog .info m ∧
    decodeTx (txWord sd 2#2 2#2) m = .sendlog .error m) ∧
  (∀ sd m, decodeTx (txWord sd 3#2 2#2) m = .sendlogRsvd m) ∧
  (∀ b, decodeRx (rxWord 1#1 b) = .rxinit ∧ decodeRx (rxWord 0#1 b) = .rxbyte b)

/-- Words written out from the tables of 30_encoding.md and 95_test_vectors.md T17 decode as those say. -/
def Obligations.SpecWordsDecode : Prop :=
  decodeTx 0xFFFF0#20 [] = .csum 0xFFFF#16 [] ∧ decodeTx 0xABCDD#20 [] = .esc [] ∧
  decodeTx 0x00002#20 [] = .sendlog .debug [] ∧ decodeTx 0x00006#20 [] = .sendlog .info [] ∧
  decodeTx 0x0000A#20 [] = .sendlog .error [] ∧ decodeTx 0x0000E#20 [] = .sendlogRsvd [] ∧
  decodeTx 0xFFFFF#20 [] = .txRsvd [] ∧ decodeRx 0x1FF#9 = .rxinit ∧ decodeRx 0x041#9 = .rxbyte 0x41#8 ∧
  decode (.token [0x0A#8]) = .ok (.lit 0x0A#8) ∧ decode (.token [0x0D#8, 0x0D#8]) = .ok .escesc ∧
  decode (.token [0x0D#8, 0x0A#8]) = .ok .eof ∧ decode (.token [0x0D#8, 0x42#8]) = .ok (.escbad 0x42#8) ∧
  decode (.token [0x0D#8]) = .error .openToken

/-- What the receiver reads next from a stream takes a front part of it, of at least one byte, and does what RXBYTE does
with each of those bytes. -/
def Obligations.TokensAreTheirBytes : Prop :=
  ∀ s b bs, ∃ used, used ≠ [] ∧ b :: bs = used ++ (cutStream s.rxEsc b bs).2 ∧
    exec (cutStream s.rxEsc b bs).1 s = rxOutcome (rxChunk used s)

/-! ## Functions -/

/-- The hex digit tables, byte by byte. -/
def Obligations.HexDigitTables : Prop :=
  (∀ n : BitVec 4, (n.toNat ≤ 9 → (hexDigit n).toNat = 0x30 + n.toNat) ∧
    (10 ≤ n.toNat → (hexDigit n).toNat = 0x41 + (n.toNat - 10))) ∧
  (∀ c : Byte, isHex c = true ↔ (0x30 ≤ c.toNat ∧ c.toNat ≤ 0x39) ∨ (0x41 ≤ c.toNat ∧ c.toNat ≤ 0x46) ∨
    (0x61 ≤ c.toNat ∧ c.toNat ≤ 0x66)) ∧
  (∀ c : Byte, (isHex c = false → hexVal c = none) ∧
    (0x30 ≤ c.toNat → c.toNat ≤ 0x39 → (hexVal c).map BitVec.toNat = some (c.toNat - 0x30)) ∧
    (0x41 ≤ c.toNat → c.toNat ≤ 0x46 → (hexVal c).map BitVec.toNat = some (c.toNat - 0x37)) ∧
    (0x61 ≤ c.toNat → c.toNat ≤ 0x66 → (hexVal c).map BitVec.toNat = some (c.toNat - 0x57)))

/-- `Hex4` is the four digits of the number, most significant first; `Unhex4` and `Unhex2` have a value exactly on hex
digits, combine the digits with shifts, and `Unhex4` undoes `Hex4`. -/
def Obligations.HexFieldsShiftAndCombine : Prop :=
  (∀ (v : Half) (a b c d : BitVec 4), v.toNat = a.toNat * 4096 + b.toNat * 256 + c.toNat * 16 + d.toNat →
    hex4 v = [hexDigit a, hexDigit b, hexDigit c, hexDigit d]) ∧
  (∀ c0 c1 c2 c3, (unhex4 c0 c1 c2 c3).isSome = true ↔
    isHex c0 = true ∧ isHex c1 = true ∧ isHex c2 = true ∧ isHex c3 = true) ∧
  (∀ c0 c1 c2 c3 a b c d, hexVal c0 = some a → hexVal c1 = some b → hexVal c2 = some c → hexVal c3 = some d →
    (unhex4 c0 c1 c2 c3).map BitVec.toNat = some (a.toNat * 4096 + b.toNat * 256 + c.toNat * 16 + d.toNat)) ∧
  (∀ v, ∃ c0 c1 c2 c3, hex4 v = [c0, c1, c2, c3] ∧ unhex4 c0 c1 c2 c3 = some v) ∧
  (∀ c0 c1, (unhex2 c0 c1).isSome = true ↔ isHex c0 = true ∧ isHex c1 = true) ∧
  (∀ c0 c1 a b, hexVal c0 = some a → hexVal c1 = some b →
    (unhex2 c0 c1).map BitVec.toNat = some (a.toNat * 16 + b.toNat))

/-- The checksum is the seed plus the sum of the bytes, each unsigned, modulo 65536. -/
def Obligations.ChecksumIsTheByteSum : Prop :=
  ∀ sd s, (csum sd s).toNat = (sd.toNat + (s.map BitVec.toNat).sum) % 65536

/-- The checksum of a concatenation is chained; it sees only the sum of the bytes; zero bytes are invisible; a shift of
the seed shifts it. -/
def Obligations.ChecksumIsIncremental : Prop :=
  (∀ sd a b, csum sd (a ++ b) = csum (csum sd a) b) ∧ (∀ sd, csum sd [] = sd) ∧
  (∀ sd a b, (a.map BitVec.toNat).sum = (b.map BitVec.toNat).sum → csum sd a = csum sd b) ∧
  (∀ sd a b, csum sd (a ++ 0x00#8 :: b) = csum sd (a ++ b)) ∧ ∀ sd d s, csum (sd + d) s = csum sd s + d

/-- Escaping adds one byte for each escape byte and nothing else. -/
def Obligations.EscapeAddsOneBytePerEscape : Prop :=
  (∀ s, (escape s).length = s.length + s.count escByte) ∧ ∀ s, s.count escByte = 0 → escape s = s

/-- Escaping works byte by byte; the bursts of a concatenation may be one fewer. -/
def Obligations.EscapeConcatenates : Prop :=
  (∀ a b, escape (a ++ b) = escape a ++ escape b) ∧
  ∀ a b x y, x ≠ escByte → y ≠ escByte →
    (escBursts (a ++ [x])).length + (escBursts (y :: b)).length = (escBursts (a ++ [x] ++ y :: b)).length + 1

/-- The bursts of a range: non-empty maximal runs without an escape byte and one doubled pair for each escape byte, in
order; together they are the escaped range. -/
def Obligations.BurstsAreTheMaximalRuns : Prop :=
  ∀ s, (escBursts s).flatten = escape s ∧
    (∀ b ∈ escBursts s, b ≠ [] ∧ (escByte ∈ b → b = [escByte, escByte])) ∧
    (escBursts s).IsChain (fun a b => escByte ∈ a ∨ escByte ∈ b) ∧
    (escBursts s).countP (fun b => decide (escByte ∈ b)) = s.count escByte

/-! ## The TX path -/

/-- CSUM, whatever its word's level field holds, answers the checksum and `OK` and touches nothing else. -/
def Obligations.CsumAnswersTheChecksum : Prop :=
  (∀ sd lv m, decodeTx (txWord sd lv 0#2) m = .csum sd m) ∧
  ∀ s sd m, s.tx = .idle →
    exec (.csum sd m) s = .next { s with txAnswers := s.txAnswers ++ [{ status := 0#16, result := some (csum sd m) }] }

/-- ESC with an accepting sink: every burst presented, the escaped range on the wire, `OK`, nothing else touched. -/
def Obligations.EscSendsTheEscapedRange : Prop :=
  ∀ s m oks rest, s.tx = .idle → s.sinkAnswers = oks ++ rest → oks.length = (escBursts m).length → AllOk oks →
    exec (.esc m) s = .next { s with
      bursts := s.bursts ++ escBursts m, wire := s.wire ++ escape m, sinkAnswers := rest,
      txAnswers := s.txAnswers ++ [{ status := 0#16, result := none }] }

/-- SENDLOG with an accepting sink: the header with its checksum and the tag of its level ("DBG", "INF" or "ERR") as one
burst, the escaped message, the hard terminator, `OK`, nothing else touched. -/
def Obligations.SendlogSendsTheFrame : Prop :=
  ∀ s level tag m oks rest,
    (level = .debug ∧ tag = [0x44#8, 0x42#8, 0x47#8]) ∨ (level = .info ∧ tag = [0x49#8, 0x4E#8, 0x46#8]) ∨
      (level = .error ∧ tag = [0x45#8, 0x52#8, 0x52#8]) →
    s.tx = .idle → s.sinkAnswers = oks ++ rest → oks.length = (escBursts m).length + 2 → AllOk oks →
    ∃ hdr, hdr = hex4 (csum 0xFFFF#16 ([0x20#8, 0x4C#8, 0x4F#8, 0x47#8, 0x20#8] ++ tag ++ [0x20#8] ++ m)) ++
        [0x20#8, 0x4C#8, 0x4F#8, 0x47#8, 0x20#8] ++ tag ++ [0x20#8] ∧ hdr.length = 13 ∧
      exec (.sendlog level m) s = .next { s with
        bursts := s.bursts ++ [hdr] ++ escBursts m ++ [[0x0D#8, 0x0A#8]],
        wire := s.wire ++ hdr ++ escape m ++ [0x0D#8, 0x0A#8], sinkAnswers := rest,
        txAnswers := s.txAnswers ++ [{ status := 0#16, result := none }] }

/-- The first failure of the sink ends the operation with the sink's own status: the bursts up to that one are presented,
those before it are on the wire whole and of it a front part, as long as the answer says (that the answer says it is
notes/assumptions/9.md, DEDUCED), and no later one is presented. -/
def Obligations.SinkFailureEndsTheOperation : Prop :=
  ∀ s i bs oks a rest burst, (∃ m, i = .esc m ∧ bs = escBursts m) ∨ (∃ level m, i = .sendlog level m ∧ bs = logBursts level m) →
    s.tx = .idle → s.sinkAnswers = oks ++ a :: rest → AllOk oks → a.status ≠ 0#16 → bs[oks.length]? = some burst →
    exec i s = .next { s with
      bursts := s.bursts ++ bs.take (oks.length + 1),
      wire := s.wire ++ (bs.take oks.length).flatten ++ burst.take a.delivered, sinkAnswers := rest,
      txAnswers := s.txAnswers ++ [{ status := a.status, result := none }] }

/-- Where the sink has not answered, the operation stays in flight with the burst presented and no status, the later bursts
and the bytes of the range not read yet still to come; a SENDLOG holds its accumulator and its header (how the model holds
the wait is its choice, notes/assumptions/8.md). -/
def Obligations.OperationWaitsForTheSink : Prop :=
  ∀ s i m bs use burst,
    (i = .esc m ∧ bs = escBursts m ∧ use = .esc) ∨
      (∃ level, i = .sendlog level m ∧ bs = logBursts level m ∧ use = .sendlog (logCsum level m) (logHeader level m)) →
    s.tx = .idle → AllOk s.sinkAnswers → bs[s.sinkAnswers.length]? = some burst →
    ∃ rest : Emission, rest.bursts = bs.drop (s.sinkAnswers.length + 1) ∧ rest.unread = m.drop rest.read ∧
      exec i s = .next { s with
        bursts := s.bursts ++ bs.take (s.sinkAnswers.length + 1), wire := s.wire ++ (bs.take s.sinkAnswers.length).flatten,
        sinkAnswers := [], tx := .waiting use burst rest }

/-- An answer that comes after the operation started has the effect it has when it was there before (that the model runs an
operation through all the answers it has in one step is its choice, notes/assumptions/8.md; this says it makes no difference). -/
def Obligations.LateSinkAnswersCountAlike : Prop :=
  ∀ s i t a, onTx i = true → exec i s = .next t →
    exec i { s with sinkAnswers := s.sinkAnswers ++ [a] } = .next (t.takeSinkAnswer a)

/-- SENDLOG with the reserved level: no burst, no state change, `E_LEVEL`. -/
def Obligations.ReservedLevelIsRefused : Prop :=
  (∀ sd m, decodeTx (txWord sd 3#2 2#2) m = .sendlogRsvd m) ∧
  ∀ s m, s.tx = .idle →
    exec (.sendlogRsvd m) s =
      .next { s with txAnswers := s.txAnswers ++ [{ status := BitVec.ofNat 16 (s.cfg.errBase + 8), result := none }] }

/-- A command word with a reserved code: no burst, no state change, `E_BADCMD` for `op = 3` and `E_LEVEL` for SENDLOG with
level 3, whatever the fields the operation does not use hold. -/
def Obligations.ReservedCommandWordsDoNothing : Prop :=
  ∀ s w m rest, s.tx = .idle → s.inbox = .tx w m :: rest →
    (txOpField w = 3#2 → decodeTx w m = .txRsvd m ∧ exec (.txRsvd m) s = .next (s.answer (BitVec.ofNat 16 (s.cfg.errBase + 9)) none) ∧
      step s = .next { s with
        inbox := rest, txAnswers := s.txAnswers ++ [{ status := BitVec.ofNat 16 (s.cfg.errBase + 9), result := none }] }) ∧
    (txOpField w = 2#2 → txLevelField w = 3#2 → decodeTx w m = .sendlogRsvd m ∧
      step s = .next { s with
        inbox := rest, txAnswers := s.txAnswers ++ [{ status := BitVec.ofNat 16 (s.cfg.errBase + 8), result := none }] }) ∧
    (∀ w', txOpField w' = txOpField w → (txOpField w = 2#2 → txLevelField w' = txLevelField w) →
      (txOpField w = 0#2 → txSeedField w' = txSeedField w) → decodeTx w' m = decodeTx w m) ∧
    ∀ b b', decodeRx (rxWord 1#1 b) = decodeRx (rxWord 1#1 b')

/-- A TX command while an operation is in flight has no behaviour in the spec (93_implementation_defined.md U6); that the model
stops there, by name, is its choice (notes/assumptions/7.md). -/
def Obligations.SecondTxCommandStops : Prop :=
  ∀ s i use burst rest, onTx i = true → s.tx = .waiting use burst rest → exec i s = .fault .txBusy

/-- What a TX operation leaves as it was, and that its outputs only grow, by at most one answer. CSUM and the reserved
commands present nothing and ask the sink nothing. -/
def Obligations.TxOperationFrame : Prop :=
  ∀ i s t, onTx i = true → exec i s = .next t →
    SameRx s t ∧ SameRest s t ∧
    (∃ issued accepted answers, t.bursts = s.bursts ++ issued ∧ t.wire = s.wire ++ accepted ∧
      t.txAnswers = s.txAnswers ++ answers ∧ answers.length ≤ 1 ∧ accepted.Sublist issued.flatten ∧
      (answers = [] ↔ t.tx ≠ .idle)) ∧
    ((∀ m, i ≠ .esc m) → (∀ level m, i ≠ .sendlog level m) →
      t.bursts = s.bursts ∧ t.wire = s.wire ∧ t.sinkAnswers = s.sinkAnswers ∧ t.tx = .idle)

/-- The paths share no state: a TX operation leaves the RX path as it was, an RX operation the TX path. -/
def Obligations.PathsShareNoState : Prop :=
  ∀ i s t, exec i s = .next t → (onTx i = true → SameRx s t) ∧ (onTx i = false → SameTx s t)

/-- A TX operation and an RX operation have the same effect in either order; an RX operation may also run while a TX
operation waits for the sink (the wait is notes/assumptions/8.md). -/
def Obligations.PathsInterleaveFreely : Prop :=
  (∀ i j s t u, onTx i = true → onTx j = false → exec i s = .next t → exec j s = .next u →
    ∃ v, exec j t = .next v ∧ exec i u = .next v) ∧
  ∀ j s u a, onTx j = false → exec j s = .next u → exec j (s.takeSinkAnswer a) = .next (u.takeSinkAnswer a)

/-! ## The RX path -/

/-- RXINIT, whatever its word's byte field holds: `rx_esc` and `rx_cursor` cleared, event `NONE`, nothing else touched. -/
def Obligations.RxinitResetsTheSession : Prop :=
  (∀ b, decodeRx (rxWord 1#1 b) = .rxinit) ∧
  ∀ s, exec .rxinit s = .next { s with rxEsc := false, rxCursor := 0, rxEvents := s.rxEvents ++ [.none] }

/-- The seven cases of RXBYTE, each with the whole next state. -/
def Obligations.RxbyteCases : Prop :=
  ∀ s b,
    (s.rxEsc = false → s.rxCursor < s.cfg.capacity → b = escByte →
      exec (.rxbyte b) s = .next { s with rxEsc := true, rxEvents := s.rxEvents ++ [.none] }) ∧
    (s.rxEsc = false → s.rxCursor < s.cfg.capacity → b ≠ escByte →
      exec (.rxbyte b) s = .next { s with
        buf := s.buf.write s.rxCursor b, rxCursor := s.rxCursor + 1, rxEvents := s.rxEvents ++ [.none] }) ∧
    (s.rxEsc = false → s.rxCursor = s.cfg.capacity → b = escByte →
      exec (.rxbyte b) s = .next { s with
        rxEsc := true, rxCursor := 0, rxEvents := s.rxEvents ++ [.errOverflow s.cfg.capacity] }) ∧
    (s.rxEsc = false → s.rxCursor = s.cfg.capacity → 1 ≤ s.cfg.capacity → b ≠ escByte →
      exec (.rxbyte b) s = .next { s with
        buf := s.buf.write 0 b, rxCursor := 1, rxEvents := s.rxEvents ++ [.errOverflow s.cfg.capacity] }) ∧
    (s.rxEsc = true → s.rxCursor < s.cfg.capacity → b = escByte →
      exec (.rxbyte b) s = .next { s with
        rxEsc := false, buf := s.buf.write s.rxCursor escByte, rxCursor := s.rxCursor + 1,
        rxEvents := s.rxEvents ++ [.none] }) ∧
    (s.rxEsc = true → b = termByte → ∀ ev, parse s = .ok ev →
      exec (.rxbyte b) s = .next { s with rxEsc := false, rxCursor := 0, rxEvents := s.rxEvents ++ [ev] }) ∧
    (s.rxEsc = true → b ≠ escByte → b ≠ termByte →
      exec (.rxbyte b) s = .next { s with
        rxEsc := false, rxCursor := 0, rxEvents := s.rxEvents ++ [.errProtocol s.rxCursor b] })

/-- The tokens at a token boundary: with room, and with the buffer full. -/
def Obligations.TokenEffects : Prop :=
  ∀ s, s.rxEsc = false →
    (s.rxCursor < s.cfg.capacity →
      (∀ b, b ≠ escByte → exec (.lit b) s = .next { s with
        buf := s.buf.write s.rxCursor b, rxCursor := s.rxCursor + 1, rxEvents := s.rxEvents ++ [.none] }) ∧
      (exec .escesc s = .next { s with
        buf := s.buf.write s.rxCursor escByte, rxCursor := s.rxCursor + 1, rxEvents := s.rxEvents ++ [.none, .none] }) ∧
      (∀ ev, parse s = .ok ev → exec .eof s = .next { s with rxCursor := 0, rxEvents := s.rxEvents ++ [.none, ev] }) ∧
      (∀ x, x ≠ escByte → x ≠ termByte → exec (.escbad x) s = .next { s with
        rxCursor := 0, rxEvents := s.rxEvents ++ [.none, .errProtocol s.rxCursor x] })) ∧
    (s.rxCursor = s.cfg.capacity → 1 ≤ s.cfg.capacity →
      (∀ b, b ≠ escByte → exec (.lit b) s = .next { s with
        buf := s.buf.write 0 b, rxCursor := 1, rxEvents := s.rxEvents ++ [.errOverflow s.cfg.capacity] }) ∧
      (exec .escesc s = .next { s with
        buf := s.buf.write 0 escByte, rxCursor := 1, rxEvents := s.rxEvents ++ [.errOverflow s.cfg.capacity, .none] }) ∧
      (exec .eof s = .next { s with
        rxCursor := 0, rxEvents := s.rxEvents ++ [.errOverflow s.cfg.capacity, .errMalformed 0] }) ∧
      (∀ x, x ≠ escByte → x ≠ termByte → exec (.escbad x) s = .next { s with
        rxCursor := 0, rxEvents := s.rxEvents ++ [.errOverflow s.cfg.capacity, .errProtocol 0 x] }))

/-- PARSE on the unescaped frame `f`: its event, case by case, and nothing else changed (that PARSE, run on its own, puts its
event on the record is the model's choice, notes/assumptions/4.md). Below 8 bytes it needs no byte of `buf`. -/
def Obligations.ParseJudgesTheFrame : Prop :=
  (∀ s, s.rxCursor < 8 → parse s = .ok (.errMalformed s.rxCursor)) ∧
  ∀ s f, Holds s f → ∃ ev, parse s = .ok ev ∧ exec .parse s = .next { s with rxEvents := s.rxEvents ++ [ev] } ∧
    (f.length < 8 → ev = .errMalformed f.length) ∧
    ∀ c0 c1 c2 c3 c4 ty q6 q7 tail, f = c0 :: c1 :: c2 :: c3 :: c4 :: ty :: q6 :: q7 :: tail →
      (unhex4 c0 c1 c2 c3 = none → ev = .errHexdigit f.length) ∧
      ∀ sum, unhex4 c0 c1 c2 c3 = some sum →
        (sum ≠ csum 0xFFFF#16 (c4 :: ty :: q6 :: q7 :: tail) → ev = .errChecksum f.length) ∧
        (sum = csum 0xFFFF#16 (c4 :: ty :: q6 :: q7 :: tail) →
          (∀ v, unhex2 q6 q7 = some v → ev = .frameOk f.length ty true v) ∧
          (unhex2 q6 q7 = none → ev = .frameOk f.length ty false 0x00#8))

/-- What an RX operation leaves as it was: the TX path, the configuration, the inputs, every byte of `buf` but the ones it
stores, and the events before its own. -/
def Obligations.RxOperationFrame : Prop :=
  ∀ i s t, onTx i = false → exec i s = .next t →
    SameTx s t ∧ SameRest s t ∧ (∃ evs, t.rxEvents = s.rxEvents ++ evs) ∧
    (∀ b, i = .rxbyte b ∨ i = .lit b →
      (∀ k, storeIndex b s ≠ some k → t.buf.read k = s.buf.read k) ∧ ∀ k, storeIndex b s = some k → t.buf.read k = some b) ∧
    (∀ b, (i = .escesc ∧ b = escByte) ∨ (i = .eof ∧ b = termByte) ∨ i = .escbad b →
      ∃ u, exec (.rxbyte escByte) s = .next u ∧
        ∀ k, storeIndex escByte s ≠ some k → storeIndex b u ≠ some k → t.buf.read k = s.buf.read k) ∧
    (i = .rxinit ∨ i = .parse → ∀ k, t.buf.read k = s.buf.read k) ∧
    (i = .parse → t.rxEsc = s.rxEsc ∧ t.rxCursor = s.rxCursor)

/-- The invariants of the RX state hold after a reset and after every RX operation, and no operation writes `buf` outside
`0..CAPACITY-1`. -/
def Obligations.RxStateInvariants : Prop :=
  (∀ c : Config, 1 ≤ c.capacity → (State.resetWith c).rxCursor ≤ c.capacity ∧
    ((State.resetWith c).rxEsc = true → (State.resetWith c).rxCursor < c.capacity)) ∧
  ∀ i s t, onTx i = false → 1 ≤ s.cfg.capacity → s.rxCursor ≤ s.cfg.capacity →
    (s.rxEsc = true → s.rxCursor < s.cfg.capacity) → exec i s = .next t →
    t.rxCursor ≤ t.cfg.capacity ∧ (t.rxEsc = true → t.rxCursor < t.cfg.capacity) ∧
    ∀ k, s.cfg.capacity ≤ k → t.buf.read k = s.buf.read k

/-- Round trip: the escaped bytes of `m` are LIT and ESCESC tokens only; fed to a receiver at reset that has room for them,
they leave exactly `m` in `buf` with no event but `NONE`; the hard terminator, if there is room, then runs PARSE on exactly
`m`, whose bytes stay readable. -/
def Obligations.EscapedBytesRoundTrip : Prop :=
  (∀ m, ∃ tokens : List Bytes, escape m = tokens.flatten ∧
    ∀ t ∈ tokens, t = [escByte, escByte] ∨ ∃ b, b ≠ escByte ∧ t = [b]) ∧
  ∀ s m, RxAtReset s → m.length ≤ s.cfg.capacity →
    ∃ t, rxChunk (escape m) s = .ok t ∧ t.rxEsc = false ∧ t.rxCursor = m.length ∧ Holds t m ∧
      t.rxEvents = s.rxEvents ++ List.replicate (escape m).length .none ∧
      (m.length < s.cfg.capacity →
        ∃ ev, parse t = .ok ev ∧ rxChunk (escape m ++ hardTerminator) s = .ok ((t.sessionReset.raise .none).raise ev) ∧
          ∀ k (h : k < m.length), ((t.sessionReset.raise .none).raise ev).hostRead k = some m[k])

/-- A log frame fed whole to a receiver at reset that has room for it gives one event, at its last byte: `FRAME_OK` with
type 'L' and no sequence value; the receiver ends at reset. -/
def Obligations.LogFrameIsReceived : Prop :=
  ∀ s level m, RxAtReset s → 14 + m.length ≤ s.cfg.capacity →
    ∃ t, rxChunk (wireFrame (logFrame level m)) s = .ok t ∧ t.rxEsc = false ∧ t.rxCursor = 0 ∧
      t.rxEvents = s.rxEvents ++ List.replicate ((wireFrame (logFrame level m)).length - 1) .none ++
        [.frameOk (13 + m.length) 0x4C#8 false 0x00#8]

/-- What SENDLOG puts on the wire when the sink accepts it, a receiver at reset with room for it accepts, and it then holds
the header and the message. -/
def Obligations.SentLogFrameIsAccepted : Prop :=
  ∀ s r level m, s.tx = .idle → AllOk s.sinkAnswers → (escBursts m).length + 2 ≤ s.sinkAnswers.length →
    RxAtReset r → 14 + m.length ≤ r.cfg.capacity →
    ∃ t sent u, exec (.sendlog level m) s = .next t ∧ t.wire = s.wire ++ sent ∧ rxChunk sent r = .ok u ∧
      u.rxEvent = some (.frameOk (13 + m.length) 0x4C#8 false 0x00#8) ∧
      ∀ k (h : k < m.length), u.hostRead (13 + k) = some m[k]

/-- A frame fed to a receiver at reset is accepted exactly when it has at least 8 bytes, fewer than `CAPACITY`, begins with
four hex digits, and these are the checksum of the rest. -/
def Obligations.AcceptedFrames : Prop :=
  ∀ s f, RxAtReset s →
    ∃ t, rxChunk (wireFrame f) s = .ok t ∧
      ((∃ ty valid sq, t.rxEvent = some (.frameOk f.length ty valid sq)) ↔
        8 ≤ f.length ∧ f.length + 1 ≤ s.cfg.capacity ∧
        ∃ c0 c1 c2 c3 body, f = c0 :: c1 :: c2 :: c3 :: body ∧ unhex4 c0 c1 c2 c3 = some (csum 0xFFFF#16 body))

/-- A frame of exactly `CAPACITY` bytes is lost: the terminator's escape byte finds the buffer full, the terminator byte ends
an empty frame. -/
def Obligations.FullLengthFrameIsLost : Prop :=
  ∀ s f, RxAtReset s → f.length = s.cfg.capacity →
    ∃ t, rxChunk (wireFrame f) s = .ok t ∧ t.rxEsc = false ∧ t.rxCursor = 0 ∧
      t.rxEvents = s.rxEvents ++ List.replicate (escape f).length .none ++ [.errOverflow s.cfg.capacity, .errMalformed 0]

/-- After a frame ends or is aborted the receiver is at `NORMAL`, cursor 0, whatever went before (after an overflow, with
the byte already handled); and what later bytes do depends on the flag, the cursor and the bytes below it alone. -/
def Obligations.ResetForgetsHistory : Prop :=
  (∀ s t b, s.rxEsc = true → b ≠ escByte → exec (.rxbyte b) s = .next t → t.rxEsc = false ∧ t.rxCursor = 0) ∧
  (∀ s t, exec .rxinit s = .next t → t.rxEsc = false ∧ t.rxCursor = 0) ∧
  (∀ s t b, s.rxEsc = false → s.cfg.capacity ≤ s.rxCursor → exec (.rxbyte b) s = .next t →
    (b = escByte → t.rxEsc = true ∧ t.rxCursor = 0) ∧ (b ≠ escByte → t.rxEsc = false ∧ t.rxCursor = 1)) ∧
  ∀ s s' bs t, SameFrame s s' → s.rxCursor ≤ s.cfg.capacity → rxChunk bs s = .ok t →
    ∃ t' evs, rxChunk bs s' = .ok t' ∧ SameFrame t t' ∧ t.rxEvents = s.rxEvents ++ evs ∧ t'.rxEvents = s'.rxEvents ++ evs

/-- How a stream is cut into chunks is invisible: serving two chunks and serving their concatenation both come to what RXBYTE
does with each byte in turn (serving chunks from an inbox is the model's choice, notes/assumptions/3.md). -/
def Obligations.ChunkingIsInvisible : Prop :=
  ∀ (s : State) a b rest, ∃ k l,
    Host.Core.run core k (s.withInbox (.chunk a :: .chunk b :: rest)) = rxOutcome (rxChunk (a ++ b) (s.withInbox rest)) ∧
    Host.Core.run core l (s.withInbox (.chunk (a ++ b) :: rest)) = rxOutcome (rxChunk (a ++ b) (s.withInbox rest))

/-! ## Events and statuses -/

/-- Every RXBYTE and every RXINIT outputs exactly one event, and no operation reads the events back. -/
def Obligations.EventsAreOutputsOnly : Prop :=
  (∀ i s t, (∃ b, i = .rxbyte b) ∨ i = .rxinit → exec i s = .next t → ∃ ev, t.rxEvents = s.rxEvents ++ [ev]) ∧
  ∀ i s t past, exec i s = .next t → ∃ evs, t.rxEvents = s.rxEvents ++ evs ∧
    exec i { s with rxEvents := past } = .next { t with rxEvents := past ++ evs }

/-- The event of an RXBYTE: when each kind occurs, what its fields are, and the session reset that goes with it. -/
def Obligations.EventFields : Prop :=
  ∀ s t b, s.rxCursor ≤ s.cfg.capacity → exec (.rxbyte b) s = .next t →
    ∃ ev, t.rxEvents = s.rxEvents ++ [ev] ∧ (ev ≠ .none → ev.lenField = s.rxCursor) ∧
      (ev = .none ↔ (s.rxEsc = false ∧ s.rxCursor < s.cfg.capacity) ∨ (s.rxEsc = true ∧ b = escByte)) ∧
      ((∃ n, ev = .errOverflow n) ↔ s.rxEsc = false ∧ s.rxCursor = s.cfg.capacity) ∧
      ((∃ n x, ev = .errProtocol n x) ↔ s.rxEsc = true ∧ b ≠ escByte ∧ b ≠ termByte) ∧
      ((∃ n, ev = .errMalformed n) ↔ s.rxEsc = true ∧ b = termByte ∧ s.rxCursor < 8) ∧
      ((∃ n, ev = .errHexdigit n ∨ ev = .errChecksum n ∨ ∃ ty v q, ev = .frameOk n ty v q) ↔
        s.rxEsc = true ∧ b = termByte ∧ 8 ≤ s.rxCursor) ∧
      (∀ n x, ev = .errProtocol n x → x = b) ∧ (∀ n ty v q, ev = .frameOk n ty v q → v = false → q = 0x00#8) ∧
      (ev ≠ .none → (∀ n, ev ≠ .errOverflow n) → t.rxEsc = false ∧ t.rxCursor = 0)

/-- The status codes, their event equivalents, and that an operation, and a step (which may serve a late answer of the
sink), outputs only `OK`, a value of the sink, `E_LEVEL` or `E_BADCMD`. -/
def Obligations.StatusCodes : Prop :=
  (∀ c : Config, c.wf →
    (ErrorKind.null.code c).toNat = c.errBase + 1 ∧ (ErrorKind.lock.code c).toNat = c.errBase + 2 ∧
    (ErrorKind.checksum.code c).toNat = c.errBase + 3 ∧ (ErrorKind.malformed.code c).toNat = c.errBase + 4 ∧
    (ErrorKind.overflow.code c).toNat = c.errBase + 5 ∧ (ErrorKind.protocol.code c).toNat = c.errBase + 6 ∧
    (ErrorKind.hexdigit.code c).toNat = c.errBase + 7 ∧ (ErrorKind.level.code c).toNat = c.errBase + 8 ∧
    (ErrorKind.badcmd.code c).toNat = c.errBase + 9 ∧ okStatus.toNat = 0 ∧ ∀ k : ErrorKind, k.code c ≠ okStatus) ∧
  (∀ n b, (RxEvent.errChecksum n).statusEquivalent = some .checksum ∧
    (RxEvent.errMalformed n).statusEquivalent = some .malformed ∧ (RxEvent.errOverflow n).statusEquivalent = some .overflow ∧
    (RxEvent.errProtocol n b).statusEquivalent = some .protocol ∧
    (RxEvent.errHexdigit n).statusEquivalent = some .hexdigit) ∧
  (∀ i s t, exec i s = .next t → ∀ a ∈ t.txAnswers, a ∈ s.txAnswers ∨ a.status = okStatus ∨
    (∃ x ∈ s.sinkAnswers, a.status = x.status ∧ x.status ≠ okStatus) ∨ a.status = ErrorKind.level.code s.cfg ∨
    a.status = ErrorKind.badcmd.code s.cfg) ∧
  ∀ s t, step s = .next t → ∀ a ∈ t.txAnswers, a ∈ s.txAnswers ∨ a.status = okStatus ∨
    (∃ x, (x ∈ s.sinkAnswers ∨ ∃ rest, s.inbox = .sink x :: rest) ∧ a.status = x.status ∧ x.status ≠ okStatus) ∨
    a.status = ErrorKind.level.code s.cfg ∨ a.status = ErrorKind.badcmd.code s.cfg

/-- The event word: kind code, length, type, sequence flag, sequence value and byte of the event at their places, the length
in as many bits as 0 to `CAPACITY` need, a field the kind does not carry zero. -/
def Obligations.EventWordLayout : Prop :=
  (∀ c : Config, c.curW = Nat.clog 2 (c.capacity + 1)) ∧
  (∀ (c : Config) (e : RxEvent), e.lenField ≤ c.capacity →
    (e.word c).extractLsb' 0 3 = e.kind ∧ ((e.word c).extractLsb' 3 c.curW).toNat = e.lenField ∧
    (e.word c).extractLsb' (3 + c.curW) 8 = e.typeField ∧
    (e.word c).extractLsb' (11 + c.curW) 1 = BitVec.ofBool e.seqValidField ∧
    (e.word c).extractLsb' (12 + c.curW) 8 = e.seqField ∧ (e.word c).extractLsb' (20 + c.curW) 8 = e.byteField) ∧
  (RxEvent.none.kind = 0#3 ∧ (∀ n ty v q, (RxEvent.frameOk n ty v q).kind = 1#3) ∧
    (∀ n, (RxEvent.errChecksum n).kind = 2#3 ∧ (RxEvent.errMalformed n).kind = 3#3 ∧ (RxEvent.errOverflow n).kind = 4#3 ∧
      (RxEvent.errHexdigit n).kind = 6#3) ∧ ∀ n b, (RxEvent.errProtocol n b).kind = 5#3) ∧
  (RxEvent.none.lenField = 0 ∧ (∀ n ty v q, (RxEvent.frameOk n ty v q).lenField = n) ∧
    (∀ n, (RxEvent.errChecksum n).lenField = n ∧ (RxEvent.errMalformed n).lenField = n ∧
      (RxEvent.errOverflow n).lenField = n ∧ (RxEvent.errHexdigit n).lenField = n) ∧
    ∀ n b, (RxEvent.errProtocol n b).lenField = n) ∧
  (∀ n ty v q, (RxEvent.frameOk n ty v q).typeField = ty ∧ (RxEvent.frameOk n ty v q).seqValidField = v ∧
    (RxEvent.frameOk n ty v q).seqField = q) ∧
  (∀ n b, (RxEvent.errProtocol n b).byteField = b) ∧
  ∀ e : RxEvent,
    ((∀ n ty v q, e ≠ .frameOk n ty v q) → e.typeField = 0#8 ∧ e.seqValidField = false ∧ e.seqField = 0#8) ∧
    ((∀ n b, e ≠ .errProtocol n b) → e.byteField = 0#8)

/-! ## The machine -/

/-- A packet that decodes to an operation, presented to the block, is what the next step runs; a token is read at a token
boundary. The host's words reach a step in this way, which is the model's choice (notes/assumptions/3.md). -/
def Obligations.StepRunsTheDecodedOperation : Prop :=
  (∀ s p i, decode p = .ok i →
    step (s.present p) = exec i (match p with | .token _ => s.setEsc false | .txc _ _ => s | .rxc _ => s)) ∧
  (∀ s w m rest, s.inbox = .tx w m :: rest → step s = exec (decodeTx w m) (s.withInbox rest)) ∧
  (∀ s w rest, s.inbox = .rx w :: rest → step s = exec (decodeRx w) (s.withInbox rest)) ∧
  (∀ s b bs i left rest, s.rxEsc = false → s.inbox = .chunk (b :: bs) :: rest → decodeToken (b :: bs) = .ok (i, left) →
    step s = exec i (s.withInbox (pushChunk left rest))) ∧
  ∀ s nbits w i, decodeTableWord nbits w = some i →
    step (s.withFetchWord nbits w) = exec i s ∨ step (s.withFetchWord nbits w) = exec i (s.setEsc false)

/-- Nothing presented: the block waits, unchanged (a step that waits is the model's choice, notes/assumptions/3.md). -/
def Obligations.NothingPresentedNothingDone : Prop :=
  ∀ s, s.inbox = [] → step s = .next s

/-- What reset leaves, of every configuration: `NORMAL`, cursor 0, no byte of `buf` with a value, the TX path idle, no event,
no status, no burst (empty records are the model's choice, notes/assumptions/6.md). -/
def Obligations.ResetLeavesTheInitialState : Prop :=
  ∀ c, (State.resetWith c).rxEsc = false ∧ (State.resetWith c).rxCursor = 0 ∧
    (∀ i, (State.resetWith c).hostRead i = none) ∧ (State.resetWith c).tx = .idle ∧ (State.resetWith c).rxEvent = none ∧
    (State.resetWith c).txAnswers = [] ∧ (State.resetWith c).bursts = [] ∧ (State.resetWith c).wire = []

/-- The hardware reset with no operation in flight is RXINIT: the RX path in its initial state, `buf` not written, the TX path
idle. That it outputs the event `NONE`, as RXINIT does, is notes/assumptions/14.md (DEDUCED). -/
def Obligations.HardwareResetIsRxinit : Prop :=
  ∀ s rest, s.tx = .idle → s.inbox = .reset :: rest →
    step s = exec .rxinit (s.withInbox rest) ∧
    ∃ t, step s = .next t ∧ t.rxEsc = false ∧ t.rxCursor = 0 ∧ (∀ i, t.buf.read i = s.buf.read i) ∧ SameTx s t

/-- A hardware reset that cuts a TX operation, for every value of the free values: some prefix of the bytes of the burst it
waited for and of the bursts after it reaches the wire, no status is output, the path is idle and the RX path reset. -/
def Obligations.CutOperationSendsAPrefix : Prop :=
  ∀ s use burst rest inputs, s.tx = .waiting use burst rest → s.inbox = .reset :: inputs →
    ∃ t k, step s = .next t ∧ t.wire = s.wire ++ (burst ++ rest.bursts.flatten).take k ∧ t.txAnswers = s.txAnswers ∧
      t.tx = .idle ∧ t.rxEsc = false ∧ t.rxCursor = 0 ∧ t.buf = s.buf

/-- No step changes the configuration. -/
def Obligations.ConfigurationNeverChanges : Prop :=
  ∀ s t, step s = .next t → t.cfg = s.cfg

/-- Every operation completes: on a receiver whose invariants hold every RX operation has a next state, and on an idle TX path
every TX operation has. -/
def Obligations.EveryOperationCompletes : Prop :=
  (∀ i s, onTx i = false → 1 ≤ s.cfg.capacity → RxInv s → ∃ t, exec i s = .next t) ∧
  ∀ i s, onTx i = true → s.tx = .idle → ∃ t, exec i s = .next t

/-- The invariant holds at reset, in every legal configuration. -/
def Obligations.InvariantAtReset : Prop :=
  ∀ c : Config, c.wf → BlockInv (State.resetWith c)

/-- Every step keeps the invariant, from every state that has it. -/
def Obligations.StepKeepsTheInvariant : Prop :=
  ∀ s t, BlockInv s → step s = .next t → BlockInv t

/-- From a state with the invariant every step goes on, but for the one duty of the environment the block does not survive: a
TX command while a TX operation is in flight. -/
def Obligations.OnlyOverlapStops : Prop :=
  ∀ s, BlockInv s → (¬ TxOverlap s → SafeStep s) ∧ (TxOverlap s → step s = .fault .txBusy)

/-- Every state a block can come to, whatever the environment presents, has the invariant. -/
def Obligations.ReachableStatesKeepTheInvariant : Prop :=
  ∀ c s, c.wf → Reachable c s → BlockInv s ∧ s.cfg = c

/-! ## Writes of the host against its duties -/

/-- A message that the host changes after SENDLOG has read it for the checksum and before it reads it again: the new bytes go
out under the checksum of the old ones, with status `OK`, and a receiver at reset with room for the frame reports the
mismatch unless the two checksums happen to be equal. That the host's writes are inputs of the model which reach the bytes
not read yet is notes/assumptions/11.md (DEDUCED). -/
def Obligations.ChangedMessageKeepsTheOldChecksum : Prop :=
  ∀ (s : State) level m changed (writes : List (Nat × Byte)) oks inputs, s.tx = .idle → s.sinkAnswers = [] → AllOk oks →
    changed = writes.foldl (fun l w => l.set w.1 w.2) m → oks.length = (escBursts changed).length + 2 →
    ∃ (hdr : Bytes) (t u : State), hdr = logHeader level m ∧ hdr.take 4 = hex4 (csum 0xFFFF#16 (hdr.drop 4 ++ m)) ∧
      exec (.sendlog level m)
        (s.withInbox (writes.map (fun w => Input.msgWrite w.1 w.2) ++ oks.map Input.sink ++ inputs)) = .next t ∧
      Host.Core.run core (writes.length + oks.length) t = .next u ∧ u.inbox = inputs ∧ u.tx = .idle ∧
      u.bursts = s.bursts ++ [hdr] ++ escBursts changed ++ [[0x0D#8, 0x0A#8]] ∧
      u.wire = s.wire ++ hdr ++ escape changed ++ [0x0D#8, 0x0A#8] ∧
      u.txAnswers = s.txAnswers ++ [{ status := 0#16, result := none }] ∧
      ∀ r, RxAtReset r → 14 + m.length ≤ r.cfg.capacity →
        ∃ v, rxChunk (hdr ++ escape changed ++ [0x0D#8, 0x0A#8]) r = .ok v ∧
          (csum 0xFFFF#16 changed ≠ csum 0xFFFF#16 m → v.rxEvent = some (.errChecksum (13 + m.length))) ∧
          (csum 0xFFFF#16 changed = csum 0xFFFF#16 m → v.rxEvent = some (.frameOk (13 + m.length) 0x4C#8 false 0x00#8))

/-- A write of the host to the byte range of an operation in flight: it changes that byte where the operation has not read it
yet, and nothing else; with no operation in flight there is no range (notes/assumptions/11.md, DEDUCED). -/
def Obligations.MessageWriteReachesUnreadBytes : Prop :=
  ∀ (s : State) i v inputs, s.inbox = .msgWrite i v :: inputs →
    (s.tx = .idle → step s = .next { s with inbox := inputs }) ∧
    ∀ use burst rest, s.tx = .waiting use burst rest →
      ∃ after : Emission, step s = .next { s with inbox := inputs, tx := .waiting use burst after } ∧
        after.ready = rest.ready ∧ after.read = rest.read ∧ after.closing = rest.closing ∧
        after.unread.length = rest.unread.length ∧
        ∀ k, k < rest.unread.length →
          after.unread[k]? = if rest.read + k = i then some v else rest.unread[k]?

/-- A write of the host to `buf`, between two RX operations: that byte changes and nothing else, with no event, and PARSE sees
it: a frame held with the byte below the cursor is held with the new byte (notes/assumptions/11.md, DEDUCED). -/
def Obligations.BufferWriteIsNotDetected : Prop :=
  ∀ (s : State) i v inputs, s.inbox = .bufWrite i v :: inputs →
    (s.cfg.capacity ≤ i → step s = .next { s with inbox := inputs }) ∧
    (i < s.cfg.capacity → ∃ t, step s = .next t ∧ t = { s with inbox := inputs, buf := t.buf } ∧
      t.buf.read i = some v ∧ (∀ k, k ≠ i → t.buf.read k = s.buf.read k) ∧ ∀ f, Holds s f → Holds t (f.set i v))
end

