-- ==== Sys2Proof/Laws/State.lean ====
section
/-! SUPPORT. One lemma per field per update of `State`, and per field of the reset state, each true by unfolding. -/

namespace Sys2Proof.Machine

/-! ## `sessionReset` -/

@[simp] theorem sessionReset_cfg (s : State) : s.sessionReset.cfg = s.cfg := rfl
@[simp] theorem sessionReset_rxEsc (s : State) : s.sessionReset.rxEsc = false := rfl
@[simp] theorem sessionReset_rxCursor (s : State) : s.sessionReset.rxCursor = 0 := rfl
@[simp] theorem sessionReset_buf (s : State) : s.sessionReset.buf = s.buf := rfl
@[simp] theorem sessionReset_tx (s : State) : s.sessionReset.tx = s.tx := rfl
@[simp] theorem sessionReset_sinkAnswers (s : State) : s.sessionReset.sinkAnswers = s.sinkAnswers := rfl
@[simp] theorem sessionReset_bursts (s : State) : s.sessionReset.bursts = s.bursts := rfl
@[simp] theorem sessionReset_wire (s : State) : s.sessionReset.wire = s.wire := rfl
@[simp] theorem sessionReset_txAnswers (s : State) : s.sessionReset.txAnswers = s.txAnswers := rfl
@[simp] theorem sessionReset_rxEvents (s : State) : s.sessionReset.rxEvents = s.rxEvents := rfl
@[simp] theorem sessionReset_inbox (s : State) : s.sessionReset.inbox = s.inbox := rfl
@[simp] theorem sessionReset_draws (s : State) : s.sessionReset.draws = s.draws := rfl

/-! ## `raise` -/

@[simp] theorem raise_cfg (s : State) (ev : RxEvent) : (s.raise ev).cfg = s.cfg := rfl
@[simp] theorem raise_rxEsc (s : State) (ev : RxEvent) : (s.raise ev).rxEsc = s.rxEsc := rfl
@[simp] theorem raise_rxCursor (s : State) (ev : RxEvent) : (s.raise ev).rxCursor = s.rxCursor := rfl
@[simp] theorem raise_buf (s : State) (ev : RxEvent) : (s.raise ev).buf = s.buf := rfl
@[simp] theorem raise_tx (s : State) (ev : RxEvent) : (s.raise ev).tx = s.tx := rfl
@[simp] theorem raise_sinkAnswers (s : State) (ev : RxEvent) : (s.raise ev).sinkAnswers = s.sinkAnswers := rfl
@[simp] theorem raise_bursts (s : State) (ev : RxEvent) : (s.raise ev).bursts = s.bursts := rfl
@[simp] theorem raise_wire (s : State) (ev : RxEvent) : (s.raise ev).wire = s.wire := rfl
@[simp] theorem raise_txAnswers (s : State) (ev : RxEvent) : (s.raise ev).txAnswers = s.txAnswers := rfl
@[simp] theorem raise_rxEvents (s : State) (ev : RxEvent) : (s.raise ev).rxEvents = s.rxEvents ++ [ev] := rfl
@[simp] theorem raise_inbox (s : State) (ev : RxEvent) : (s.raise ev).inbox = s.inbox := rfl
@[simp] theorem raise_draws (s : State) (ev : RxEvent) : (s.raise ev).draws = s.draws := rfl

/-! ## `setEsc` -/

@[simp] theorem setEsc_cfg (s : State) (e : Bool) : (s.setEsc e).cfg = s.cfg := rfl
@[simp] theorem setEsc_rxEsc (s : State) (e : Bool) : (s.setEsc e).rxEsc = e := rfl
@[simp] theorem setEsc_rxCursor (s : State) (e : Bool) : (s.setEsc e).rxCursor = s.rxCursor := rfl
@[simp] theorem setEsc_buf (s : State) (e : Bool) : (s.setEsc e).buf = s.buf := rfl
@[simp] theorem setEsc_tx (s : State) (e : Bool) : (s.setEsc e).tx = s.tx := rfl
@[simp] theorem setEsc_sinkAnswers (s : State) (e : Bool) : (s.setEsc e).sinkAnswers = s.sinkAnswers := rfl
@[simp] theorem setEsc_bursts (s : State) (e : Bool) : (s.setEsc e).bursts = s.bursts := rfl
@[simp] theorem setEsc_wire (s : State) (e : Bool) : (s.setEsc e).wire = s.wire := rfl
@[simp] theorem setEsc_txAnswers (s : State) (e : Bool) : (s.setEsc e).txAnswers = s.txAnswers := rfl
@[simp] theorem setEsc_rxEvents (s : State) (e : Bool) : (s.setEsc e).rxEvents = s.rxEvents := rfl
@[simp] theorem setEsc_inbox (s : State) (e : Bool) : (s.setEsc e).inbox = s.inbox := rfl
@[simp] theorem setEsc_draws (s : State) (e : Bool) : (s.setEsc e).draws = s.draws := rfl

/-! ## `withInbox` -/

@[simp] theorem withInbox_cfg (s : State) (inputs : List Input) : (s.withInbox inputs).cfg = s.cfg := rfl
@[simp] theorem withInbox_rxEsc (s : State) (inputs : List Input) : (s.withInbox inputs).rxEsc = s.rxEsc := rfl
@[simp] theorem withInbox_rxCursor (s : State) (inputs : List Input) : (s.withInbox inputs).rxCursor = s.rxCursor := rfl
@[simp] theorem withInbox_buf (s : State) (inputs : List Input) : (s.withInbox inputs).buf = s.buf := rfl
@[simp] theorem withInbox_tx (s : State) (inputs : List Input) : (s.withInbox inputs).tx = s.tx := rfl
@[simp] theorem withInbox_sinkAnswers (s : State) (inputs : List Input) : (s.withInbox inputs).sinkAnswers = s.sinkAnswers := rfl
@[simp] theorem withInbox_bursts (s : State) (inputs : List Input) : (s.withInbox inputs).bursts = s.bursts := rfl
@[simp] theorem withInbox_wire (s : State) (inputs : List Input) : (s.withInbox inputs).wire = s.wire := rfl
@[simp] theorem withInbox_txAnswers (s : State) (inputs : List Input) : (s.withInbox inputs).txAnswers = s.txAnswers := rfl
@[simp] theorem withInbox_rxEvents (s : State) (inputs : List Input) : (s.withInbox inputs).rxEvents = s.rxEvents := rfl
@[simp] theorem withInbox_inbox (s : State) (inputs : List Input) : (s.withInbox inputs).inbox = inputs := rfl
@[simp] theorem withInbox_draws (s : State) (inputs : List Input) : (s.withInbox inputs).draws = s.draws := rfl

/-! ## `answer` -/

@[simp] theorem answer_cfg (s : State) (status : Half) (result : Option Half) : (s.answer status result).cfg = s.cfg := rfl
@[simp] theorem answer_rxEsc (s : State) (status : Half) (result : Option Half) : (s.answer status result).rxEsc = s.rxEsc := rfl
@[simp] theorem answer_rxCursor (s : State) (status : Half) (result : Option Half) : (s.answer status result).rxCursor = s.rxCursor := rfl
@[simp] theorem answer_buf (s : State) (status : Half) (result : Option Half) : (s.answer status result).buf = s.buf := rfl
@[simp] theorem answer_tx (s : State) (status : Half) (result : Option Half) : (s.answer status result).tx = s.tx := rfl
@[simp] theorem answer_sinkAnswers (s : State) (status : Half) (result : Option Half) : (s.answer status result).sinkAnswers = s.sinkAnswers := rfl
@[simp] theorem answer_bursts (s : State) (status : Half) (result : Option Half) : (s.answer status result).bursts = s.bursts := rfl
@[simp] theorem answer_wire (s : State) (status : Half) (result : Option Half) : (s.answer status result).wire = s.wire := rfl
@[simp] theorem answer_txAnswers (s : State) (status : Half) (result : Option Half) : (s.answer status result).txAnswers = s.txAnswers ++ [{ status := status, result := result }] := rfl
@[simp] theorem answer_rxEvents (s : State) (status : Half) (result : Option Half) : (s.answer status result).rxEvents = s.rxEvents := rfl
@[simp] theorem answer_inbox (s : State) (status : Half) (result : Option Half) : (s.answer status result).inbox = s.inbox := rfl
@[simp] theorem answer_draws (s : State) (status : Half) (result : Option Half) : (s.answer status result).draws = s.draws := rfl

/-! ## `push` -/

@[simp] theorem push_cfg (s : State) (v : Byte) : (s.push v).cfg = s.cfg := rfl
@[simp] theorem push_rxEsc (s : State) (v : Byte) : (s.push v).rxEsc = s.rxEsc := rfl
@[simp] theorem push_rxCursor (s : State) (v : Byte) : (s.push v).rxCursor = s.rxCursor + 1 := rfl
@[simp] theorem push_buf (s : State) (v : Byte) : (s.push v).buf = s.buf.write s.rxCursor v := rfl
@[simp] theorem push_tx (s : State) (v : Byte) : (s.push v).tx = s.tx := rfl
@[simp] theorem push_sinkAnswers (s : State) (v : Byte) : (s.push v).sinkAnswers = s.sinkAnswers := rfl
@[simp] theorem push_bursts (s : State) (v : Byte) : (s.push v).bursts = s.bursts := rfl
@[simp] theorem push_wire (s : State) (v : Byte) : (s.push v).wire = s.wire := rfl
@[simp] theorem push_txAnswers (s : State) (v : Byte) : (s.push v).txAnswers = s.txAnswers := rfl
@[simp] theorem push_rxEvents (s : State) (v : Byte) : (s.push v).rxEvents = s.rxEvents := rfl
@[simp] theorem push_inbox (s : State) (v : Byte) : (s.push v).inbox = s.inbox := rfl
@[simp] theorem push_draws (s : State) (v : Byte) : (s.push v).draws = s.draws := rfl

/-! ## `hostWrite` -/

section
variable (s : State) (i : Nat) (v : Byte)

@[simp] theorem hostWrite_cfg : (s.hostWrite i v).cfg = s.cfg := by unfold State.hostWrite; split <;> rfl
@[simp] theorem hostWrite_rxEsc : (s.hostWrite i v).rxEsc = s.rxEsc := by unfold State.hostWrite; split <;> rfl
@[simp] theorem hostWrite_rxCursor : (s.hostWrite i v).rxCursor = s.rxCursor := by unfold State.hostWrite; split <;> rfl
@[simp] theorem hostWrite_tx : (s.hostWrite i v).tx = s.tx := by unfold State.hostWrite; split <;> rfl
@[simp] theorem hostWrite_sinkAnswers : (s.hostWrite i v).sinkAnswers = s.sinkAnswers := by unfold State.hostWrite; split <;> rfl
@[simp] theorem hostWrite_bursts : (s.hostWrite i v).bursts = s.bursts := by unfold State.hostWrite; split <;> rfl
@[simp] theorem hostWrite_wire : (s.hostWrite i v).wire = s.wire := by unfold State.hostWrite; split <;> rfl
@[simp] theorem hostWrite_txAnswers : (s.hostWrite i v).txAnswers = s.txAnswers := by unfold State.hostWrite; split <;> rfl
@[simp] theorem hostWrite_rxEvents : (s.hostWrite i v).rxEvents = s.rxEvents := by unfold State.hostWrite; split <;> rfl
@[simp] theorem hostWrite_inbox : (s.hostWrite i v).inbox = s.inbox := by unfold State.hostWrite; split <;> rfl
@[simp] theorem hostWrite_draws : (s.hostWrite i v).draws = s.draws := by unfold State.hostWrite; split <;> rfl

end

/-- A write of the host outside `0..CAPACITY-1` is none. -/
theorem hostWrite_outside {s : State} {i : Nat} (h : s.cfg.capacity ≤ i) (v : Byte) : s.hostWrite i v = s := by
  simp [State.hostWrite, Nat.not_lt.mpr h]

/-- A write of the host inside `0..CAPACITY-1` puts the byte there. -/
theorem hostWrite_inside {s : State} {i : Nat} (h : i < s.cfg.capacity) (v : Byte) :
    s.hostWrite i v = { s with buf := s.buf.write i v } := by
  simp [State.hostWrite, h]

/-! ## Reset -/

@[simp] theorem resetWith_cfg (c : Config) : (State.resetWith c).cfg = c := rfl
@[simp] theorem resetWith_rxEsc (c : Config) : (State.resetWith c).rxEsc = false := rfl
@[simp] theorem resetWith_rxCursor (c : Config) : (State.resetWith c).rxCursor = 0 := rfl
@[simp] theorem resetWith_buf (c : Config) : (State.resetWith c).buf = [] := rfl
@[simp] theorem resetWith_tx (c : Config) : (State.resetWith c).tx = .idle := rfl
@[simp] theorem resetWith_sinkAnswers (c : Config) : (State.resetWith c).sinkAnswers = [] := rfl
@[simp] theorem resetWith_bursts (c : Config) : (State.resetWith c).bursts = [] := rfl
@[simp] theorem resetWith_wire (c : Config) : (State.resetWith c).wire = [] := rfl
@[simp] theorem resetWith_txAnswers (c : Config) : (State.resetWith c).txAnswers = [] := rfl
@[simp] theorem resetWith_rxEvents (c : Config) : (State.resetWith c).rxEvents = [] := rfl
@[simp] theorem resetWith_inbox (c : Config) : (State.resetWith c).inbox = [] := rfl
@[simp] theorem resetWith_draws (c : Config) : (State.resetWith c).draws = 0 := rfl

/-! ## Updates of updates -/

@[simp] theorem withInbox_withInbox (s : State) (a b : List Input) : (s.withInbox a).withInbox b = s.withInbox b := rfl

@[simp] theorem withInbox_self (s : State) : s.withInbox s.inbox = s := rfl

@[simp] theorem setEsc_setEsc (s : State) (a b : Bool) : (s.setEsc a).setEsc b = s.setEsc b := rfl

@[simp] theorem setEsc_sessionReset (s : State) (e : Bool) : (s.setEsc e).sessionReset = s.sessionReset := rfl

end Sys2Proof.Machine
end

