-- ==== Sys2Proof/Laws/Decode.lean ====
section
/-! SUPPORT. The fields of an encoded command word, each as it was put in. -/

namespace Sys2Proof

@[simp] theorem txOpField_txWord (sd : Half) (level op : BitVec 2) : txOpField (txWord sd level op) = op := by
  unfold txOpField txWord
  ext i hi
  simp [hi, show i < 4 by omega, show i < 20 by omega]

@[simp] theorem txLevelField_txWord (sd : Half) (level op : BitVec 2) : txLevelField (txWord sd level op) = level := by
  unfold txLevelField txWord
  ext i hi
  simp [hi, show 2 + i < 4 by omega, show 2 + i < 20 by omega, show 1 < 2 + i by omega]

@[simp] theorem txSeedField_txWord (sd : Half) (level op : BitVec 2) : txSeedField (txWord sd level op) = sd := by
  unfold txSeedField txWord
  ext i hi
  have hop : op.getLsbD (4 + i) = false := BitVec.getLsbD_of_ge op _ (by omega)
  simp [hi, hop, show 4 + i < 20 by omega, show 4 + i - 2 = 2 + i by omega]

@[simp] theorem rxWord_init (init : BitVec 1) (b : Byte) : (rxWord init b).extractLsb' 8 1 = init := by
  unfold rxWord
  ext j hj
  simp [show j = 0 by omega]

@[simp] theorem rxWord_byte (init : BitVec 1) (b : Byte) : (rxWord init b).extractLsb' 0 8 = b := by
  unfold rxWord
  ext j hj
  simp [hj, show j < 9 by omega]

@[simp] theorem levelOfField_levelField (level : Level) : levelOfField (levelField level) = some level := by
  cases level <;> rfl

/-- The token `ESC_BYTE, x` stands first in a stream. -/
@[simp] theorem decodeToken_esc (x : Byte) (rest : Bytes) :
    decodeToken (escByte :: x :: rest) = .ok (escapedToken x, rest) := by
  simp [decodeToken]

/-- A literal stands first in a stream. -/
@[simp] theorem decodeToken_lit {b : Byte} (h : b ≠ escByte) (rest : Bytes) : decodeToken (b :: rest) = .ok (.lit b, rest) := by
  simp [decodeToken, h]

/-- A stream that ends inside a token. -/
@[simp] theorem decodeToken_open : decodeToken [escByte] = .error .openToken := by
  simp [decodeToken]

end Sys2Proof
end

