-- ==== Sys2Proof/Laws/Memory.lean ====
section
/-! SUPPORT. The laws of byte memory: reading after writing, and that the canonical form is kept and makes equal memories
equal data; then what one access to the scratch buffer can do. -/

namespace Sys2Proof.Machine

@[simp] theorem read_nil (i : Nat) : Memory.read [] i = none := rfl

theorem read_cons (a : Nat) (v : Byte) (t : Memory) (i : Nat) :
    Memory.read ((a, v) :: t) i = if a = i then some v else Memory.read t i := rfl

/-- An index below every listed one is not listed. -/
theorem read_eq_none_of_lt {m : Memory} {i : Nat} (h : ∀ c ∈ m, i < c.1) : m.read i = none := by
  induction m with
  | nil => rfl
  | cons c t ih =>
    obtain ⟨a, v⟩ := c
    have ha : i < a := h (a, v) (by simp)
    rw [read_cons, if_neg (by omega)]
    exact ih fun c hc => h c (List.mem_cons_of_mem _ hc)

/-- Read after write: the written index gives the written byte, every other index what it gave before. -/
@[simp] theorem read_write (m : Memory) (i j : Nat) (v : Byte) :
    (m.write i v).read j = if j = i then some v else m.read j := by
  induction m with
  | nil => simp [Memory.write, read_cons, eq_comm]
  | cons c t ih =>
    obtain ⟨a, w⟩ := c
    simp only [Memory.write]
    split
    · simp only [read_cons, eq_comm]
    · split
      · subst_vars
        simp only [read_cons]
        by_cases h : j = a <;> simp [h, eq_comm (a := a)]
      · simp only [read_cons, ih]
        by_cases h : a = j
        · subst h
          simp [Ne.symm ‹¬i = a›]
        · simp [h]

/-- The indices listed after a write are the written one and those listed before. -/
theorem mem_write {m : Memory} {i : Nat} {v : Byte} {c : Host.Cell} (h : c ∈ m.write i v) : c = (i, v) ∨ c ∈ m := by
  induction m with
  | nil => exact .inl (by simpa [Memory.write] using h)
  | cons d t ih =>
    obtain ⟨a, w⟩ := d
    simp only [Memory.write] at h
    split at h
    · simpa using h
    · split at h
      · rcases List.mem_cons.mp h with h | h
        · exact .inl h
        · exact .inr (List.mem_cons_of_mem _ h)
      · rcases List.mem_cons.mp h with h | h
        · exact .inr (by simp [h])
        · exact (ih h).imp id (List.mem_cons_of_mem _)

/-- The empty memory is in canonical form. -/
theorem nil_wf : Memory.wf [] := List.Pairwise.nil

/-- Every write keeps the canonical form. -/
theorem write_wf {m : Memory} (h : m.wf) (i : Nat) (v : Byte) : (m.write i v).wf := by
  induction m with
  | nil => simp [Memory.write, Memory.wf]
  | cons d t ih =>
    obtain ⟨a, w⟩ := d
    obtain ⟨hd, ht⟩ := List.pairwise_cons.mp h
    simp only [Memory.write]
    split
    · refine List.pairwise_cons.mpr ⟨fun c hc => ?_, h⟩
      rcases List.mem_cons.mp hc with rfl | hc
      · assumption
      · exact lt_trans ‹i < a› (hd c hc)
    · split
      · subst_vars
        exact List.pairwise_cons.mpr ⟨hd, ht⟩
      · refine List.pairwise_cons.mpr ⟨fun c hc => ?_, ih ht⟩
        rcases mem_write hc with rfl | hc
        · simp only; omega
        · exact hd c hc

/-- A byte that reads with a value is listed. -/
theorem mem_of_read {m : Memory} {i : Nat} {v : Byte} (h : m.read i = some v) : (i, v) ∈ m := by
  induction m with
  | nil => simp at h
  | cons d t ih =>
    obtain ⟨a, w⟩ := d
    rw [read_cons] at h
    split at h
    · cases h; subst_vars; simp
    · exact List.mem_cons_of_mem _ (ih h)

/-- A write of the host keeps the form. -/
theorem hostWrite_wf {s : State} (h : s.buf.wf) (i : Nat) (v : Byte) : (s.hostWrite i v).buf.wf := by
  unfold State.hostWrite
  split
  · exact write_wf h i v
  · exact h

/-- Memories in canonical form that read alike are the same data. -/
theorem wf_ext {m n : Memory} (hm : m.wf) (hn : n.wf) (h : ∀ i, m.read i = n.read i) : m = n := by
  induction m generalizing n with
  | nil =>
    cases n with
    | nil => rfl
    | cons d t =>
      have := h d.1
      rw [read_nil, read_cons, if_pos rfl] at this
      exact absurd this (by simp)
  | cons c t ih =>
    obtain ⟨a, v⟩ := c
    obtain ⟨hc, ht⟩ := List.pairwise_cons.mp hm
    cases n with
    | nil =>
      have := h a
      rw [read_nil, read_cons, if_pos rfl] at this
      exact absurd this (by simp)
    | cons d u =>
      obtain ⟨b, w⟩ := d
      obtain ⟨hd, hu⟩ := List.pairwise_cons.mp hn
      have hab : a = b := by
        have ha := h a
        have hb := h b
        rw [read_cons, read_cons, if_pos rfl] at ha
        rw [read_cons, read_cons, if_pos (rfl : b = b)] at hb
        rcases lt_trichotomy a b with hl | he | hl
        · rw [if_neg (by omega), read_eq_none_of_lt fun c hc => lt_trans hl (hd c hc)] at ha
          exact absurd ha (by simp)
        · exact he
        · rw [if_neg (by omega), read_eq_none_of_lt fun c hc' => lt_trans hl (hc c hc')] at hb
          exact absurd hb (by simp)
      subst hab
      have hv : v = w := by simpa [read_cons] using h a
      subst hv
      congr 1
      refine ih ht hu fun i => ?_
      by_cases hi : a = i
      · subst hi
        rw [read_eq_none_of_lt hc, read_eq_none_of_lt hd]
      · simpa [read_cons, hi] using h i

/-! ## The scratch buffer -/

/-- What reading one byte can answer. -/
theorem bufRead_ok_iff {s : State} {i : Nat} {v : Byte} :
    s.bufRead i = .ok v ↔ i < s.cfg.capacity ∧ s.buf.read i = some v := by
  unfold State.bufRead
  split
  · cases h : s.buf.read i <;> simp [*]
  · simp [*]

/-- A range that is inside the buffer and written reads as its bytes. -/
theorem bufRange_eq {s : State} {i : Nat} {f : Bytes} (hc : i + f.length ≤ s.cfg.capacity)
    (hf : ∀ k (h : k < f.length), s.buf.read (i + k) = some f[k]) : s.bufRange i f.length = .ok f := by
  induction f generalizing i with
  | nil => rfl
  | cons b t ih =>
    have h0 : s.bufRead i = .ok b := bufRead_ok_iff.mpr ⟨by simp at hc; omega, hf 0 (by simp)⟩
    have ht : s.bufRange (i + 1) t.length = .ok t := by
      refine ih (by simp at hc; omega) fun k hk => ?_
      have := hf (k + 1) (by simpa using hk)
      simpa [Nat.add_assoc, Nat.add_comm 1 k] using this
    simp [State.bufRange, h0, ht, bind, Except.bind]

/-- What an append can do: it stores at the cursor, inside the buffer, and advances it. -/
theorem append_ok_iff {s t : State} {v : Byte} :
    s.append v = .ok t ↔ s.rxCursor < s.cfg.capacity ∧
      t = s.push v := by
  unfold State.append
  split
  · simp [*, eq_comm]
  · simp [*]

/-- An append with room at the cursor. -/
theorem append_of_lt {s : State} (h : s.rxCursor < s.cfg.capacity) (v : Byte) : s.append v = .ok (s.push v) :=
  append_ok_iff.mpr ⟨h, rfl⟩

end Sys2Proof.Machine
end

