-- ==== Sys2Proof/Laws/Operands.lean ====
section
/-! SUPPORT. The equations of the functions over operands, so that no later proof unfolds them. -/

namespace Sys2Proof.Machine

theorem escByte_ne_termByte : escByte ≠ termByte := by decide

/-! ## Checksum -/

@[simp] theorem csum_nil (sd : Half) : csum sd [] = sd := rfl

@[simp] theorem csum_cons (sd : Half) (b : Byte) (t : Bytes) : csum sd (b :: t) = csum (sd + b.setWidth 16) t := rfl

/-! ## Hex -/

@[simp] theorem hex4_length (v : Half) : (hex4 v).length = csumFieldLen := rfl

theorem isHex_iff {c : Byte} : isHex c = true ↔ ∃ n, hexVal c = some n := by
  simp [isHex, Option.isSome_iff_exists]

theorem hexVal_hexDigit : ∀ n : BitVec 4, hexVal (hexDigit n) = some n := by decide

theorem unhex4_isSome {c0 c1 c2 c3 : Byte} :
    (unhex4 c0 c1 c2 c3).isSome = (isHex c0 && isHex c1 && isHex c2 && isHex c3) := by
  unfold unhex4 isHex
  cases hexVal c0 <;> cases hexVal c1 <;> cases hexVal c2 <;> cases hexVal c3 <;> rfl

theorem unhex2_isSome {c0 c1 : Byte} : (unhex2 c0 c1).isSome = (isHex c0 && isHex c1) := by
  unfold unhex2 isHex
  cases hexVal c0 <;> cases hexVal c1 <;> rfl

/-! ## Byte stuffing -/

@[simp] theorem escape_nil : escape [] = [] := rfl

@[simp] theorem escape_esc (t : Bytes) : escape (escByte :: t) = escByte :: escByte :: escape t := by
  simp [escape]

@[simp] theorem escape_ne {b : Byte} (h : b ≠ escByte) (t : Bytes) : escape (b :: t) = b :: escape t := by
  simp [escape, h]

/-- Escaping works byte by byte on what stands before a tail. -/
theorem escape_singleton_append (b : Byte) (t : Bytes) :
    escape (b :: t) = (if b = escByte then [escByte, escByte] else [b]) ++ escape t := by
  by_cases h : b = escByte <;> simp [h]

@[simp] theorem flushRun_nil : flushRun [] = [] := rfl

@[simp] theorem flushRun_flatten (run : Bytes) : (flushRun run).flatten = run := by
  unfold flushRun
  split <;> simp [*]

@[simp] theorem escBurstsFrom_nil (run : Bytes) : escBurstsFrom run [] = flushRun run := rfl

@[simp] theorem escBurstsFrom_esc (run t : Bytes) :
    escBurstsFrom run (escByte :: t) = flushRun run ++ [escByte, escByte] :: escBurstsFrom [] t := by
  simp [escBurstsFrom]

@[simp] theorem escBurstsFrom_ne {b : Byte} (h : b ≠ escByte) (run t : Bytes) :
    escBurstsFrom run (b :: t) = escBurstsFrom (run ++ [b]) t := by
  simp [escBurstsFrom, h]

/-- The loop of `EscEmit` writes the run it holds and then the escaped rest. -/
theorem escBurstsFrom_flatten (run m : Bytes) : (escBurstsFrom run m).flatten = run ++ escape m := by
  induction m generalizing run with
  | nil => simp
  | cons b t ih =>
    by_cases h : b = escByte
    · subst h; simp [ih]
    · simp [h, ih]

/-- The loop of `EscEmit` writes no empty burst. -/
theorem escBurstsFrom_ne_nil {run m : Bytes} {b : Burst} (hb : b ∈ escBurstsFrom run m) : b ≠ [] := by
  have flush : ∀ {r : Bytes}, b ∈ flushRun r → b ≠ [] := by
    intro r h
    unfold flushRun at h
    split at h
    · simp at h
    · simp only [List.mem_singleton] at h
      subst h
      assumption
  induction m generalizing run with
  | nil => exact flush hb
  | cons c t ih =>
    by_cases h : c = escByte
    · subst h
      rw [escBurstsFrom_esc, List.mem_append, List.mem_cons] at hb
      rcases hb with hb | rfl | hb
      · exact flush hb
      · simp
      · exact ih hb
    · rw [escBurstsFrom_ne h] at hb
      exact ih hb

/-! ## Emissions -/

@[simp] theorem emitFrom_ne {b : Byte} (h : b ≠ escByte) (closing : List Burst) (read : Nat) (run t : Bytes) :
    emitFrom closing read run (b :: t) = emitFrom closing (read + 1) (run ++ [b]) t := by
  cases run <;> simp [emitFrom, h]

/-- The loop of `EscEmit` has no next burst exactly where nothing is left to write. -/
theorem emitFrom_eq_none_iff {closing : List Burst} {read : Nat} {run m : Bytes} :
    emitFrom closing read run m = none ↔ escBurstsFrom run m ++ closing = [] := by
  induction m generalizing read run with
  | nil => cases run <;> cases closing <;> simp [emitFrom, flushRun]
  | cons b t ih =>
    by_cases h : b = escByte
    · subst h; cases run <;> simp [emitFrom]
    · rw [escBurstsFrom_ne h, ← ih, emitFrom_ne h]

/-- What the loop of `EscEmit` does up to its next `SinkWrite`: the burst is the first one left to write, the rest stays to
be written, the bytes it has read are counted, and the bursts after the range wait for its end. -/
theorem emitFrom_eq_some {closing : List Burst} {read : Nat} {run m : Bytes} {b : Burst} {e : Emission}
    (h : emitFrom closing read run m = some (b, e)) :
    escBurstsFrom run m ++ closing = b :: e.bursts ∧ read ≤ e.read ∧ e.unread = m.drop (e.read - read) ∧
      e.read + e.unread.length = read + m.length := by
  induction m generalizing read run with
  | nil =>
    cases run <;> cases closing <;> simp only [emitFrom, Option.some.injEq, Prod.mk.injEq, reduceCtorEq] at h <;>
      obtain ⟨rfl, rfl⟩ := h <;> simp [Emission.bursts, flushRun, escBursts]
  | cons c t ih =>
    by_cases hc : c = escByte
    · subst hc
      cases run <;> simp only [emitFrom, if_true, Option.some.injEq, Prod.mk.injEq] at h <;>
        obtain ⟨rfl, rfl⟩ := h <;> simp [Emission.bursts, flushRun, escBursts] <;> omega
    · rw [emitFrom_ne hc] at h
      obtain ⟨hb, hr, hu, hl⟩ := ih h
      refine ⟨by rw [escBurstsFrom_ne hc, hb], by omega, ?_, by simp only [List.length_cons]; omega⟩
      rw [hu, show e.read - read = (e.read - (read + 1)) + 1 by omega, List.drop_succ_cons]

@[simp] theorem emission_next_ready (b : Burst) (rest closing : List Burst) (read : Nat) (unread : Bytes) :
    Emission.next { ready := b :: rest, read := read, unread := unread, closing := closing } =
      some (b, { ready := rest, read := read, unread := unread, closing := closing }) := rfl

theorem emission_next_eq_none_iff {e : Emission} : e.next = none ↔ e.bursts = [] := by
  obtain ⟨_ | ⟨b, rest⟩, read, unread, closing⟩ := e
  · rw [Emission.next, emitFrom_eq_none_iff]
    rfl
  · simp [Emission.bursts]

/-- What taking the next burst does: it is the first of the bursts, the others are left, and the bytes read are counted. -/
theorem emission_next_eq_some {e e' : Emission} {b : Burst} (h : e.next = some (b, e')) :
    e.bursts = b :: e'.bursts ∧ e.read ≤ e'.read ∧ e'.unread = e.unread.drop (e'.read - e.read) ∧
      e'.read + e'.unread.length = e.read + e.unread.length := by
  obtain ⟨_ | ⟨c, rest⟩, read, unread, closing⟩ := e
  · exact emitFrom_eq_some h
  · simp only [emission_next_ready, Option.some.injEq, Prod.mk.injEq] at h
    obtain ⟨rfl, rfl⟩ := h
    simp [Emission.bursts]

/-- An emission with a burst left issues it next. -/
theorem emission_next_of_bursts {e : Emission} {b : Burst} {bs : List Burst} (h : e.bursts = b :: bs) :
    ∃ e', e.next = some (b, e') ∧ e'.bursts = bs := by
  cases hn : e.next with
  | none => simp [emission_next_eq_none_iff.mp hn] at h
  | some p =>
    obtain ⟨c, e'⟩ := p
    have hb := (emission_next_eq_some hn).1
    rw [h] at hb
    obtain ⟨rfl, rfl⟩ := List.cons.inj hb
    exact ⟨e', rfl, rfl⟩

@[simp] theorem escEmission_bursts (m : Bytes) : (escEmission m).bursts = escBursts m := by
  simp [escEmission, Emission.bursts]

@[simp] theorem logEmission_bursts (level : Level) (m : Bytes) : (logEmission level m).bursts = logBursts level m := rfl

@[simp] theorem emission_change_ready (e : Emission) (i : Nat) (v : Byte) : (e.change i v).ready = e.ready := by
  unfold Emission.change; split <;> rfl
@[simp] theorem emission_change_read (e : Emission) (i : Nat) (v : Byte) : (e.change i v).read = e.read := by
  unfold Emission.change; split <;> rfl
@[simp] theorem emission_change_closing (e : Emission) (i : Nat) (v : Byte) : (e.change i v).closing = e.closing := by
  unfold Emission.change; split <;> rfl
@[simp] theorem emission_change_unread_length (e : Emission) (i : Nat) (v : Byte) :
    (e.change i v).unread.length = e.unread.length := by
  unfold Emission.change; split <;> simp

/-- A byte already read stays as it was read. -/
theorem emission_change_read_byte {e : Emission} {i : Nat} (h : i < e.read) (v : Byte) : e.change i v = e := by
  simp [Emission.change, h]

/-- No burst of an emission becomes empty by a change of its range. -/
theorem emission_change_ne_nil {e : Emission} (h : ∀ b ∈ e.bursts, b ≠ []) (i : Nat) (v : Byte) :
    ∀ b ∈ (e.change i v).bursts, b ≠ [] := by
  intro b hb
  simp only [Emission.bursts, emission_change_ready, emission_change_closing, List.mem_append] at hb
  rcases hb with (hb | hb) | hb
  · exact h b (by simp [Emission.bursts, hb])
  · exact escBurstsFrom_ne_nil hb
  · exact h b (by simp [Emission.bursts, hb])

/-! ## Log frames -/

@[simp] theorem levelTag_length (level : Level) : (levelTag level).length = 3 := by cases level <;> rfl

@[simp] theorem logHeaderTail_length (level : Level) : (logHeaderTail level).length = 9 := by cases level <;> rfl

@[simp] theorem logHeader_length (level : Level) (m : Bytes) : (logHeader level m).length = hdrLen := by
  simp [logHeader, csumFieldLen, hdrLen]

end Sys2Proof.Machine
end

