-- ==== Sys2Proof/Laws/Rx.lean ====
section
/-! SUPPORT. What the RX operations can do, said once: the full test, PARSE, one RXBYTE, a chunk. -/

namespace Sys2Proof.Machine

@[simp] theorem rxOutcome_ok (s : State) : rxOutcome (.ok s) = .next s := rfl

@[simp] theorem rxOutcome_error (f : Fault) : rxOutcome (.error f) = .fault f := rfl

theorem rxOutcome_next_iff {r : Except Fault State} {t : State} : rxOutcome r = .next t ↔ r = .ok t := by
  cases r <;> simp

/-! ## The full test -/

theorem fullTest_of_lt {s : State} (h : s.rxCursor < s.cfg.capacity) : s.fullTest = (.none, s) := by
  simp [State.fullTest, Nat.not_le.mpr h]

theorem fullTest_of_le {s : State} (h : s.cfg.capacity ≤ s.rxCursor) :
    s.fullTest = (.errOverflow s.rxCursor, s.sessionReset) := by
  simp [State.fullTest, h]

/-- Either there is room and nothing happens, or the buffer is full and the session is reset. -/
theorem fullTest_cases (s : State) :
    (s.rxCursor < s.cfg.capacity ∧ s.fullTest = (.none, s)) ∨
    (s.cfg.capacity ≤ s.rxCursor ∧ s.fullTest = (.errOverflow s.rxCursor, s.sessionReset)) := by
  rcases Nat.lt_or_ge s.rxCursor s.cfg.capacity with h | h
  · exact .inl ⟨h, fullTest_of_lt h⟩
  · exact .inr ⟨h, fullTest_of_le h⟩

/-! ## PARSE -/

/-- Every way PARSE can answer an event. -/
theorem parse_ok_cases {s : State} {ev : RxEvent} (h : parse s = .ok ev) :
    (s.rxCursor < minFrameLen ∧ ev = .errMalformed s.rxCursor) ∨
    (minFrameLen ≤ s.rxCursor ∧ ∃ c0 c1 c2 c3, s.bufRead 0 = .ok c0 ∧ s.bufRead 1 = .ok c1 ∧ s.bufRead 2 = .ok c2 ∧
      s.bufRead 3 = .ok c3 ∧
      ((unhex4 c0 c1 c2 c3 = none ∧ ev = .errHexdigit s.rxCursor) ∨
       ∃ sum body, unhex4 c0 c1 c2 c3 = some sum ∧
        s.bufRange csumFieldLen (s.rxCursor - csumFieldLen) = .ok body ∧
        ((sum ≠ csum csumSeed body ∧ ev = .errChecksum s.rxCursor) ∨
         (sum = csum csumSeed body ∧ ∃ ty q6 q7, s.bufRead 5 = .ok ty ∧ s.bufRead 6 = .ok q6 ∧ s.bufRead 7 = .ok q7 ∧
          ev = .frameOk s.rxCursor ty (seqFields q6 q7).1 (seqFields q6 q7).2)))) := by
  unfold parse at h
  split at h
  · exact .inl ⟨‹_›, by simpa using h.symm⟩
  · refine .inr ⟨Nat.not_lt.mp ‹_›, ?_⟩
    cases h0 : s.bufRead 0 with
    | error f => simp [h0, bind, Except.bind] at h
    | ok c0 =>
    cases h1 : s.bufRead 1 with
    | error f => simp [h0, h1, bind, Except.bind] at h
    | ok c1 =>
    cases h2 : s.bufRead 2 with
    | error f => simp [h0, h1, h2, bind, Except.bind] at h
    | ok c2 =>
    cases h3 : s.bufRead 3 with
    | error f => simp [h0, h1, h2, h3, bind, Except.bind] at h
    | ok c3 =>
    refine ⟨c0, c1, c2, c3, rfl, rfl, rfl, rfl, ?_⟩
    cases hu : unhex4 c0 c1 c2 c3 with
    | none => exact .inl ⟨rfl, by simpa [h0, h1, h2, h3, hu, bind, Except.bind, eq_comm] using h⟩
    | some sum =>
    cases hb : s.bufRange csumFieldLen (s.rxCursor - csumFieldLen) with
    | error f => simp [h0, h1, h2, h3, hu, hb, bind, Except.bind] at h
    | ok body =>
    refine .inr ⟨sum, body, rfl, rfl, ?_⟩
    by_cases hs : sum = csum csumSeed body
    · refine .inr ⟨hs, ?_⟩
      cases h5 : s.bufRead 5 with
      | error f => simp [h0, h1, h2, h3, hu, hb, hs, h5, bind, Except.bind] at h
      | ok ty =>
      cases h6 : s.bufRead 6 with
      | error f => simp [h0, h1, h2, h3, hu, hb, hs, h5, h6, bind, Except.bind] at h
      | ok q6 =>
      cases h7 : s.bufRead 7 with
      | error f => simp [h0, h1, h2, h3, hu, hb, hs, h5, h6, h7, bind, Except.bind] at h
      | ok q7 =>
      exact ⟨ty, q6, q7, rfl, rfl, rfl, by simpa [h0, h1, h2, h3, hu, hb, hs, h5, h6, h7, bind, Except.bind, eq_comm] using h⟩
    · exact .inl ⟨hs, by simpa [h0, h1, h2, h3, hu, hb, hs, bind, Except.bind, eq_comm] using h⟩

/-- PARSE reads the configuration, the cursor and the buffer, nothing else. -/
theorem parse_congr {s t : State} (hc : t.cfg = s.cfg) (hn : t.rxCursor = s.rxCursor) (hb : t.buf = s.buf) :
    parse t = parse s := by
  have hr : ∀ i, t.bufRead i = s.bufRead i := fun i => by simp [State.bufRead, hc, hb]
  have hg : ∀ k i, t.bufRange i k = s.bufRange i k := by
    intro k
    induction k with
    | zero => intro i; rfl
    | succ k ih => intro i; simp [State.bufRange, hr, ih]
  simp only [parse, hn, hr, hg]

/-! ## RXBYTE -/

/-- Every way one RXBYTE can go on: the cases of rules R143 to R148. -/
theorem rxByte_ok_cases {b : Byte} {s t : State} (h : rxByte b s = .ok t) :
    (s.rxEsc = false ∧ b = escByte ∧ t = (s.fullTest.2.setEsc true).raise s.fullTest.1) ∨
    (s.rxEsc = false ∧ b ≠ escByte ∧ s.fullTest.2.rxCursor < s.cfg.capacity ∧
      t = (s.fullTest.2.push b).raise s.fullTest.1) ∨
    (s.rxEsc = true ∧ b = escByte ∧ s.rxCursor < s.cfg.capacity ∧ t = ((s.setEsc false).push escByte).raise .none) ∨
    (s.rxEsc = true ∧ b = termByte ∧ ∃ ev, parse s = .ok ev ∧ t = s.sessionReset.raise ev) ∨
    (s.rxEsc = true ∧ b ≠ escByte ∧ b ≠ termByte ∧ t = s.sessionReset.raise (.errProtocol s.rxCursor b)) := by
  have hcap : s.fullTest.2.cfg = s.cfg := by rcases fullTest_cases s with ⟨-, e⟩ | ⟨-, e⟩ <;> simp [e]
  unfold rxByte at h
  cases hs : s.rxEsc with
  | false =>
    rw [if_neg (by simp [hs])] at h
    unfold rxNormal at h
    split at h
    · exact .inl ⟨rfl, ‹_›, by simpa using h.symm⟩
    · cases ha : s.fullTest.2.append b with
      | error f => simp [ha, Except.map] at h
      | ok u =>
        obtain ⟨hl, rfl⟩ := append_ok_iff.mp ha
        exact .inr (.inl ⟨rfl, ‹_›, hcap ▸ hl, by simpa [ha, Except.map] using h.symm⟩)
  | true =>
    rw [if_pos hs] at h
    unfold rxEscaping at h
    split at h
    · cases ha : (s.setEsc false).append escByte with
      | error f => simp [ha, Except.map] at h
      | ok u =>
        obtain ⟨hl, rfl⟩ := append_ok_iff.mp ha
        exact .inr (.inr (.inl ⟨rfl, ‹_›, by simpa using hl, by simpa [ha, Except.map] using h.symm⟩))
    · split at h
      · cases hp : parse s with
        | error f => simp [hp, Except.map] at h
        | ok ev => exact .inr (.inr (.inr (.inl ⟨rfl, ‹_›, ev, rfl, by simpa [hp, Except.map] using h.symm⟩)))
      · exact .inr (.inr (.inr (.inr ⟨rfl, ‹_›, ‹_›, by simpa using h.symm⟩)))

/-- `NORMAL` with room, the escape byte (rule R144). -/
theorem rxByte_normal_esc {s : State} (he : s.rxEsc = false) (hr : s.rxCursor < s.cfg.capacity) :
    rxByte escByte s = .ok ((s.setEsc true).raise .none) := by
  simp [rxByte, he, rxNormal, fullTest_of_lt hr]

/-- `NORMAL` with room, any other byte (rule R145). -/
theorem rxByte_normal_lit {s : State} {b : Byte} (he : s.rxEsc = false) (hr : s.rxCursor < s.cfg.capacity)
    (hb : b ≠ escByte) : rxByte b s = .ok ((s.push b).raise .none) := by
  simp [rxByte, he, rxNormal, hb, fullTest_of_lt hr, append_of_lt hr, Except.map]

/-- `ESCAPING` with room, the escape byte (rule R146). -/
theorem rxByte_escaping_esc {s : State} (he : s.rxEsc = true) (hr : s.rxCursor < s.cfg.capacity) :
    rxByte escByte s = .ok (((s.setEsc false).push escByte).raise .none) := by
  have : (s.setEsc false).append escByte = .ok ((s.setEsc false).push escByte) := append_of_lt (by simpa using hr) _
  simp [rxByte, he, rxEscaping, this, Except.map]

/-- `ESCAPING`, the terminator byte (rule R147). -/
theorem rxByte_escaping_term {s : State} (he : s.rxEsc = true) :
    rxByte termByte s = (parse s).map fun ev => s.sessionReset.raise ev := by
  simp [rxByte, he, rxEscaping, escByte_ne_termByte.symm]

/-- `ESCAPING`, any other byte (rule R148). -/
theorem rxByte_escaping_bad {s : State} {b : Byte} (he : s.rxEsc = true) (h1 : b ≠ escByte) (h2 : b ≠ termByte) :
    rxByte b s = .ok (s.sessionReset.raise (.errProtocol s.rxCursor b)) := by
  simp [rxByte, he, rxEscaping, h1, h2]

/-- `NORMAL` and full, the escape byte (rules R143, R144). -/
theorem rxByte_full_esc {s : State} (he : s.rxEsc = false) (hc : s.cfg.capacity ≤ s.rxCursor) :
    rxByte escByte s = .ok ((s.sessionReset.setEsc true).raise (.errOverflow s.rxCursor)) := by
  simp [rxByte, he, rxNormal, fullTest_of_le hc]

/-- `NORMAL` and full, any other byte (rules R143, R145). -/
theorem rxByte_full_lit {s : State} {b : Byte} (he : s.rxEsc = false) (hc : s.cfg.capacity ≤ s.rxCursor)
    (h1 : 1 ≤ s.cfg.capacity) (hb : b ≠ escByte) :
    rxByte b s = .ok ((s.sessionReset.push b).raise (.errOverflow s.rxCursor)) := by
  have : s.sessionReset.append b = .ok (s.sessionReset.push b) := append_of_lt (by simpa [Nat.lt_iff_add_one_le] using h1) b
  simp [rxByte, he, rxNormal, hb, fullTest_of_le hc, this, Except.map]

/-! ## Chunks -/

@[simp] theorem rxChunk_nil (s : State) : rxChunk [] s = .ok s := rfl

theorem rxChunk_cons (b : Byte) (t : Bytes) (s : State) : rxChunk (b :: t) s = (rxByte b s).bind (rxChunk t) := rfl

/-- A byte the receiver takes, then the rest. -/
theorem rxChunk_cons_ok {b : Byte} {t : Bytes} {s u : State} (h : rxByte b s = .ok u) :
    rxChunk (b :: t) s = rxChunk t u := by
  simp [rxChunk_cons, h, Except.bind]

@[simp] theorem rxChunk_one (b : Byte) (s : State) : rxChunk [b] s = rxByte b s := by
  rw [rxChunk_cons]
  cases rxByte b s <;> rfl

/-- A chunk in two parts is the first, then the second. -/
theorem rxChunk_append (a b : Bytes) (s : State) : rxChunk (a ++ b) s = (rxChunk a s).bind (rxChunk b) := by
  induction a generalizing s with
  | nil => rfl
  | cons x a ih =>
    simp only [List.cons_append, rxChunk_cons]
    cases rxByte x s with
    | error f => rfl
    | ok u => exact ih u

end Sys2Proof.Machine
end

