-- ==== Sys2Proof/Laws/Sink.lean ====
section
/-! SUPPORT. What the TX path can do, said once: handing bursts to the sink, starting and resuming an operation, a reset that
cuts one. -/

namespace Sys2Proof.Machine

/-! ## Handing bursts to the sink -/

/-- Nothing left to emit: the operation ends, whatever answers are there. -/
theorem runSink_of_none {e : Emission} (h : e.next = none) (as : List SinkAnswer) :
    runSink e as = { issued := [], accepted := [], left := as, ended := .done okStatus } := by
  cases as <;> simp [runSink, h]

theorem runSink_no_answer {e rest : Emission} {b : Burst} (h : e.next = some (b, rest)) :
    runSink e [] = { issued := [b], accepted := [], left := [], ended := .waiting b rest } := by
  simp [runSink, h]

theorem runSink_cons_ok {e rest : Emission} {b : Burst} (h : e.next = some (b, rest)) {a : SinkAnswer}
    (ha : a.status = okStatus) (as : List SinkAnswer) :
    runSink e (a :: as) =
      { issued := b :: (runSink rest as).issued, accepted := b ++ (runSink rest as).accepted,
        left := (runSink rest as).left, ended := (runSink rest as).ended } := by
  simp [runSink, h, ha]

theorem runSink_cons_fail {e rest : Emission} {b : Burst} (h : e.next = some (b, rest)) {a : SinkAnswer}
    (ha : a.status ≠ okStatus) (as : List SinkAnswer) :
    runSink e (a :: as) = { issued := [b], accepted := b.take a.delivered, left := as, ended := .done a.status } := by
  simp [runSink, h, ha]

/-- The bursts presented are a front part of those the emission has, in order (rule R56). A run that waits has taken every
answer; what is left is the rest of the bursts and of the range, read up to where the last burst needed it. -/
theorem runSink_issued (e : Emission) (as : List SinkAnswer) :
    ∃ k, (runSink e as).issued = e.bursts.take k ∧
      (∀ b rest, (runSink e as).ended = .waiting b rest → (runSink e as).left = [] ∧
        (∃ before, e.bursts = before ++ b :: rest.bursts ∧ (runSink e as).issued = before ++ [b]) ∧
        e.read ≤ rest.read ∧ rest.unread = e.unread.drop (rest.read - e.read)) := by
  induction as generalizing e with
  | nil =>
    cases hn : e.next with
    | none => exact ⟨0, by simp [runSink_of_none hn], fun b r h => by simp [runSink_of_none hn] at h⟩
    | some p =>
      obtain ⟨c, e'⟩ := p
      obtain ⟨hb, hr, hu, -⟩ := emission_next_eq_some hn
      rw [runSink_no_answer hn]
      refine ⟨1, by simp [hb], fun b r h => ?_⟩
      simp only [SinkEnd.waiting.injEq] at h
      obtain ⟨rfl, rfl⟩ := h
      exact ⟨rfl, ⟨[], by simpa using hb, rfl⟩, hr, hu⟩
  | cons a as ih =>
    cases hn : e.next with
    | none => exact ⟨0, by simp [runSink_of_none hn], fun b r h => by simp [runSink_of_none hn] at h⟩
    | some p =>
      obtain ⟨c, e'⟩ := p
      obtain ⟨hb, hr, hu, -⟩ := emission_next_eq_some hn
      by_cases ha : a.status = okStatus
      · obtain ⟨k, hk, hw⟩ := ih e'
        rw [runSink_cons_ok hn ha]
        refine ⟨k + 1, by simp [hk, hb], fun b r h => ?_⟩
        obtain ⟨hl, ⟨before, hb', hi⟩, hr', hu'⟩ := hw b r h
        refine ⟨hl, ⟨c :: before, by simp [hb, hb'], by simp [hi]⟩, by omega, ?_⟩
        rw [hu', hu, List.drop_drop]
        congr 1
        omega
      · rw [runSink_cons_fail hn ha]
        exact ⟨1, by simp [hb], fun b r h => by simp at h⟩

/-! ## Recording the run -/

/-- A run that ended: its status is output and the path is idle. -/
theorem recordSink_done {s : State} {use : TxUse} {r : SinkRun} {status : Half} (h : r.ended = .done status) :
    s.recordSink use r =
      { s with
        bursts := s.bursts ++ r.issued, wire := s.wire ++ r.accepted, sinkAnswers := r.left, tx := .idle,
        txAnswers := s.txAnswers ++ [{ status := status, result := none }] } := by
  simp [State.recordSink, h]

/-- A run that waits: the operation stays in flight and outputs nothing. -/
theorem recordSink_waiting {s : State} {use : TxUse} {r : SinkRun} {b : Burst} {rest : Emission}
    (h : r.ended = .waiting b rest) :
    s.recordSink use r =
      { s with
        bursts := s.bursts ++ r.issued, wire := s.wire ++ r.accepted, sinkAnswers := r.left,
        tx := .waiting use b rest } := by
  simp [State.recordSink, h]

section
variable (s : State) (use : TxUse) (r : SinkRun)

@[simp] theorem recordSink_cfg : (s.recordSink use r).cfg = s.cfg := by unfold State.recordSink; split <;> rfl
@[simp] theorem recordSink_rxEsc : (s.recordSink use r).rxEsc = s.rxEsc := by unfold State.recordSink; split <;> rfl
@[simp] theorem recordSink_rxCursor : (s.recordSink use r).rxCursor = s.rxCursor := by unfold State.recordSink; split <;> rfl
@[simp] theorem recordSink_buf : (s.recordSink use r).buf = s.buf := by unfold State.recordSink; split <;> rfl
@[simp] theorem recordSink_rxEvents : (s.recordSink use r).rxEvents = s.rxEvents := by unfold State.recordSink; split <;> rfl
@[simp] theorem recordSink_inbox : (s.recordSink use r).inbox = s.inbox := by unfold State.recordSink; split <;> rfl
@[simp] theorem recordSink_draws : (s.recordSink use r).draws = s.draws := by unfold State.recordSink; split <;> rfl
@[simp] theorem recordSink_bursts : (s.recordSink use r).bursts = s.bursts ++ r.issued := by
  unfold State.recordSink; split <;> rfl
@[simp] theorem recordSink_wire : (s.recordSink use r).wire = s.wire ++ r.accepted := by
  unfold State.recordSink; split <;> rfl
@[simp] theorem recordSink_sinkAnswers : (s.recordSink use r).sinkAnswers = r.left := by
  unfold State.recordSink; split <;> rfl

end

/-! ## Starting an operation -/

theorem startTx_idle {s : State} (h : s.tx = .idle) (run : State → State) : s.startTx run = .next (run s) := by
  simp [State.startTx, h]

/-- A TX operation goes on only from an idle path, and then with what it does. -/
theorem startTx_next_iff {s t : State} {run : State → State} : s.startTx run = .next t ↔ s.tx = .idle ∧ t = run s := by
  unfold State.startTx
  cases s.tx <;> simp [eq_comm]

theorem takeSinkAnswer_idle {s : State} (h : s.tx = .idle) (a : SinkAnswer) :
    s.takeSinkAnswer a = { s with sinkAnswers := s.sinkAnswers ++ [a] } := by
  simp [State.takeSinkAnswer, h]

theorem takeSinkAnswer_waiting {s : State} {use : TxUse} {b : Burst} {rest : Emission} (h : s.tx = .waiting use b rest)
    (a : SinkAnswer) :
    s.takeSinkAnswer a = s.recordSink use
      { runSink { rest with ready := b :: rest.ready } (s.sinkAnswers ++ [a]) with
        issued := (runSink { rest with ready := b :: rest.ready } (s.sinkAnswers ++ [a])).issued.tail } := by
  simp [State.takeSinkAnswer, h]

/-! ## A range that changes -/

theorem changeMessage_idle {s : State} (h : s.tx = .idle) (i : Nat) (v : Byte) : s.changeMessage i v = s := by
  simp [State.changeMessage, h]

theorem changeMessage_waiting {s : State} {use : TxUse} {b : Burst} {rest : Emission} (h : s.tx = .waiting use b rest)
    (i : Nat) (v : Byte) : s.changeMessage i v = { s with tx := .waiting use b (rest.change i v) } := by
  simp [State.changeMessage, h]

section
variable (s : State) (i : Nat) (v : Byte)

@[simp] theorem changeMessage_cfg : (s.changeMessage i v).cfg = s.cfg := by unfold State.changeMessage; split <;> rfl
@[simp] theorem changeMessage_rxEsc : (s.changeMessage i v).rxEsc = s.rxEsc := by unfold State.changeMessage; split <;> rfl
@[simp] theorem changeMessage_rxCursor : (s.changeMessage i v).rxCursor = s.rxCursor := by
  unfold State.changeMessage; split <;> rfl
@[simp] theorem changeMessage_buf : (s.changeMessage i v).buf = s.buf := by unfold State.changeMessage; split <;> rfl
@[simp] theorem changeMessage_sinkAnswers : (s.changeMessage i v).sinkAnswers = s.sinkAnswers := by
  unfold State.changeMessage; split <;> rfl
@[simp] theorem changeMessage_bursts : (s.changeMessage i v).bursts = s.bursts := by unfold State.changeMessage; split <;> rfl
@[simp] theorem changeMessage_wire : (s.changeMessage i v).wire = s.wire := by unfold State.changeMessage; split <;> rfl
@[simp] theorem changeMessage_txAnswers : (s.changeMessage i v).txAnswers = s.txAnswers := by
  unfold State.changeMessage; split <;> rfl
@[simp] theorem changeMessage_rxEvents : (s.changeMessage i v).rxEvents = s.rxEvents := by
  unfold State.changeMessage; split <;> rfl
@[simp] theorem changeMessage_inbox : (s.changeMessage i v).inbox = s.inbox := by unfold State.changeMessage; split <;> rfl
@[simp] theorem changeMessage_draws : (s.changeMessage i v).draws = s.draws := by unfold State.changeMessage; split <;> rfl

end

/-! ## The hardware reset -/

theorem cutTx_idle {s : State} (h : s.tx = .idle) : s.cutTx = s := by
  simp [State.cutTx, h]

/-- A reset cuts an operation in flight: the free values say how far it came. -/
theorem cutTx_waiting {s : State} {use : TxUse} {b : Burst} {rest : Emission} (h : s.tx = .waiting use b rest) :
    s.cutTx = { s with
      tx := .idle
      bursts := s.bursts ++ rest.bursts.take (Config.cutBursts s.draws)
      wire := s.wire ++ ((b :: rest.bursts).take (Config.cutBursts s.draws)).flatten
        ++ (((b :: rest.bursts).drop (Config.cutBursts s.draws)).headD []).take (Config.cutBytes s.draws)
      draws := s.draws + 1 } := by
  simp [State.cutTx, h]

section
variable (s : State)

@[simp] theorem cutTx_cfg : s.cutTx.cfg = s.cfg := by unfold State.cutTx; split <;> rfl
@[simp] theorem cutTx_rxEsc : s.cutTx.rxEsc = s.rxEsc := by unfold State.cutTx; split <;> rfl
@[simp] theorem cutTx_rxCursor : s.cutTx.rxCursor = s.rxCursor := by unfold State.cutTx; split <;> rfl
@[simp] theorem cutTx_buf : s.cutTx.buf = s.buf := by unfold State.cutTx; split <;> rfl
@[simp] theorem cutTx_rxEvents : s.cutTx.rxEvents = s.rxEvents := by unfold State.cutTx; split <;> rfl
@[simp] theorem cutTx_txAnswers : s.cutTx.txAnswers = s.txAnswers := by unfold State.cutTx; split <;> rfl
@[simp] theorem cutTx_inbox : s.cutTx.inbox = s.inbox := by unfold State.cutTx; split <;> rfl
@[simp] theorem cutTx_tx : s.cutTx.tx = .idle := by
  unfold State.cutTx
  split
  · assumption
  · rfl

end

end Sys2Proof.Machine
end

