-- ==== Sys2Proof/Laws/Exec.lean ====
section
/-! SUPPORT. What `exec` can do, said once: each arm as its shared operation, and the inversion for each path. -/

namespace Sys2Proof.Machine

/-! ## The arms -/

theorem exec_lit (b : Byte) (s : State) : exec (.lit b) s = rxOutcome (rxByte b s) := by
  rw [← rxChunk_one]; rfl

theorem exec_escesc (s : State) : exec .escesc s = rxOutcome (rxChunk [escByte, escByte] s) := rfl

theorem exec_eof (s : State) : exec .eof s = rxOutcome (rxChunk [escByte, termByte] s) := rfl

theorem exec_escbad (x : Byte) (s : State) : exec (.escbad x) s = rxOutcome (rxChunk [escByte, x] s) := rfl

theorem exec_rxbyte (b : Byte) (s : State) : exec (.rxbyte b) s = rxOutcome (rxByte b s) := rfl

theorem exec_rxinit (s : State) : exec .rxinit s = .next (s.sessionReset.raise .none) := rfl

theorem exec_parse (s : State) : exec .parse s = rxOutcome ((parse s).map s.raise) := rfl

theorem exec_csum (sd : Half) (m : Bytes) (s : State) :
    exec (.csum sd m) s = s.startTx fun t => t.answer okStatus (some (csum sd m)) := rfl

theorem exec_esc (m : Bytes) (s : State) : exec (.esc m) s = s.startTx fun t => t.emit .esc (escEmission m) := rfl

theorem exec_sendlog (level : Level) (m : Bytes) (s : State) :
    exec (.sendlog level m) s =
      s.startTx fun t => t.emit (.sendlog (logCsum level m) (logHeader level m)) (logEmission level m) := rfl

theorem exec_sendlogRsvd (m : Bytes) (s : State) :
    exec (.sendlogRsvd m) s = s.startTx fun t => t.answer (ErrorKind.level.code t.cfg) none := rfl

theorem exec_txRsvd (m : Bytes) (s : State) :
    exec (.txRsvd m) s = s.startTx fun t => t.answer (ErrorKind.badcmd.code t.cfg) none := rfl

/-! ## The TX path -/

/-- A TX operation is `startTx` of something that answers at once or hands bursts to the sink. -/
theorem exec_tx_cases {i : Instr} (h : onTx i = true) :
    (∃ status : Config → Half, ∃ result, ∀ s, exec i s = s.startTx fun t => t.answer (status t.cfg) result) ∨
    (∃ use e, ∀ s, exec i s = s.startTx fun t => t.emit use e) := by
  cases i with
  | csum sd m => exact .inl ⟨fun _ => okStatus, _, exec_csum sd m⟩
  | esc m => exact .inr ⟨_, _, exec_esc m⟩
  | sendlog level m => exact .inr ⟨_, _, exec_sendlog level m⟩
  | sendlogRsvd m => exact .inl ⟨ErrorKind.level.code, _, exec_sendlogRsvd m⟩
  | txRsvd m => exact .inl ⟨ErrorKind.badcmd.code, _, exec_txRsvd m⟩
  | lit | escesc | eof | escbad | rxbyte | rxinit | parse => simp [onTx] at h

/-! ## The RX path -/

/-- An RX operation feeds bytes, resets the session, or runs PARSE. -/
theorem exec_rx_cases {i : Instr} (h : onTx i = false) :
    (∃ bs, bs ≠ [] ∧ ∀ s, exec i s = rxOutcome (rxChunk bs s)) ∨
    (i = .rxinit ∧ ∀ s, exec i s = .next (s.sessionReset.raise .none)) ∨
    (i = .parse ∧ ∀ s, exec i s = rxOutcome ((parse s).map s.raise)) := by
  cases i with
  | lit b => exact .inl ⟨[b], by simp, fun s => by simp [exec_lit]⟩
  | escesc => exact .inl ⟨_, by simp, exec_escesc⟩
  | eof => exact .inl ⟨_, by simp, exec_eof⟩
  | escbad x => exact .inl ⟨_, by simp, exec_escbad x⟩
  | rxbyte b => exact .inl ⟨[b], by simp, fun s => by simp [exec_rxbyte]⟩
  | rxinit => exact .inr (.inl ⟨rfl, exec_rxinit⟩)
  | parse => exact .inr (.inr ⟨rfl, exec_parse⟩)
  | csum | esc | sendlog | sendlogRsvd | txRsvd => simp [onTx] at h

/-- A chunk that goes on goes on byte by byte. -/
theorem rxChunk_cons_ok_iff {b : Byte} {bs : Bytes} {s t : State} :
    rxChunk (b :: bs) s = .ok t ↔ ∃ u, rxByte b s = .ok u ∧ rxChunk bs u = .ok t := by
  rw [rxChunk_cons]
  cases rxByte b s <;> simp [Except.bind]

/-- Induction over a chunk, packaged once: what one RXBYTE keeps, a chunk keeps. -/
theorem rxChunk_induction {P : State → State → Prop} (refl : ∀ s, P s s)
    (head : ∀ {b : Byte} {s u t : State}, rxByte b s = .ok u → P u t → P s t) {bs : Bytes} {s t : State}
    (h : rxChunk bs s = .ok t) : P s t := by
  induction bs generalizing s with
  | nil => cases h; exact refl _
  | cons b bs ih =>
    obtain ⟨u, hu, ht⟩ := rxChunk_cons_ok_iff.mp h
    exact head hu (ih ht)

end Sys2Proof.Machine
end

