-- ==== Sys2Proof/Laws/PerInstr.lean ====
section
/-! SUPPORT. Facts about every operation as syntax, one lemma per constructor. -/

namespace Sys2Proof.Laws.EncodingForm

/-- The form of an operation's encoding (30_encoding.md rules R76, R77, R86, R87; 44_parse_validate.md rule R160): a token is two
bytes exactly when its first byte is `ESC_BYTE` and one byte otherwise, a TX command is a `TXC` word with the
operation's own range, an RX command is an `RXC` word, and PARSE alone has no encoding. -/
def Statement (i : Instr) : Prop :=
  match encode i with
  | some (.token bs) => ∃ b t, bs = b :: t ∧ (i.wf Machine.State.reset.cfg = true → (b = escByte ↔ t.length = 1) ∧ t.length ≤ 1)
  | some (.txc w m) => ∃ sd lv op, w = txWord sd lv op ∧ (i = .csum sd m ∨ i = .esc m ∨ (∃ level, i = .sendlog level m) ∨
      i = .sendlogRsvd m ∨ i = .txRsvd m)
  | some (.rxc w) => ∃ init b, w = rxWord init b ∧ (i = .rxbyte b ∨ i = .rxinit)
  | none => i = .parse

theorem lit (b : Byte) : Statement (.lit b) :=
  ⟨b, [], rfl, fun h => by simpa [Instr.wf] using h⟩

theorem escesc : Statement .escesc := ⟨escByte, [escByte], rfl, fun _ => by simp⟩

theorem eof : Statement .eof := ⟨escByte, [termByte], rfl, fun _ => by simp⟩

theorem escbad (x : Byte) : Statement (.escbad x) := ⟨escByte, [x], rfl, fun _ => by simp⟩

theorem csum (sd : Half) (m : Bytes) : Statement (.csum sd m) := ⟨sd, 0#2, 0#2, rfl, .inl rfl⟩

theorem esc (m : Bytes) : Statement (.esc m) := ⟨0#16, 0#2, 1#2, rfl, .inr (.inl rfl)⟩

theorem sendlog (level : Level) (m : Bytes) : Statement (.sendlog level m) :=
  ⟨0#16, levelField level, 2#2, rfl, .inr (.inr (.inl ⟨level, rfl⟩))⟩

theorem sendlogRsvd (m : Bytes) : Statement (.sendlogRsvd m) := ⟨0#16, 3#2, 2#2, rfl, .inr (.inr (.inr (.inl rfl)))⟩

theorem txRsvd (m : Bytes) : Statement (.txRsvd m) := ⟨0#16, 0#2, 3#2, rfl, .inr (.inr (.inr (.inr rfl)))⟩

theorem rxbyte (b : Byte) : Statement (.rxbyte b) := ⟨0#1, b, rfl, .inl rfl⟩

theorem rxinit : Statement .rxinit := ⟨1#1, 0#8, rfl, .inr rfl⟩

theorem parse : Statement .parse := rfl

end Sys2Proof.Laws.EncodingForm
end

