-- ==== Sys2Proof/Laws/Step.lean ====
section
/-! SUPPORT. What a step can do, said once. -/

namespace Sys2Proof.Machine

theorem step_eq_of_op {s t : State} {i : Instr} (h : fetch s = .op i t) : step s = exec i t := by
  simp [step, h]

theorem step_eq_of_other {s t : State} (h : fetch s = .other t) : step s = .next t := by
  simp [step, h]

/-- Every way a step can go on: it runs an operation that stood at the ports, or takes what is no operation. -/
theorem step_next_cases {s t : State} (h : step s = .next t) :
    (∃ i u, fetch s = .op i u ∧ exec i u = .next t) ∨ fetch s = .other t := by
  unfold step at h
  split at h
  · exact .inl ⟨_, _, ‹_›, h⟩
  · cases h
    exact .inr ‹_›

/-- What a fetch changes: the inbox alone, where an operation stands at the ports. -/
theorem fetch_op_state {s u : State} {i : Instr} (h : fetch s = .op i u) : u = s.withInbox u.inbox := by
  unfold fetch at h
  split at h <;> first | (cases h; rfl) | cases h

/-- Every way a fetch gives no operation. -/
theorem fetch_other_cases {s t : State} (h : fetch s = .other t) :
    (s.inbox = [] ∧ t = s) ∨
    (∃ rest, s.inbox = .chunk [] :: rest ∧ t = s.withInbox rest) ∨
    (∃ a rest, s.inbox = .sink a :: rest ∧ t = (s.withInbox rest).takeSinkAnswer a) ∨
    (∃ i v rest, s.inbox = .msgWrite i v :: rest ∧ t = (s.withInbox rest).changeMessage i v) ∨
    (∃ i v rest, s.inbox = .bufWrite i v :: rest ∧ t = (s.withInbox rest).hostWrite i v) ∨
    (∃ rest, s.inbox = .reset :: rest ∧ t = (s.withInbox rest).hardReset) := by
  unfold fetch at h
  split at h
  · exact .inl ⟨‹_›, by cases h; rfl⟩
  · cases h
  · cases h
  · exact .inr (.inl ⟨_, ‹_›, by cases h; rfl⟩)
  · cases h
  · exact .inr (.inr (.inl ⟨_, _, ‹_›, by cases h; rfl⟩))
  · exact .inr (.inr (.inr (.inl ⟨_, _, _, ‹_›, by cases h; rfl⟩)))
  · exact .inr (.inr (.inr (.inr (.inl ⟨_, _, _, ‹_›, by cases h; rfl⟩))))
  · exact .inr (.inr (.inr (.inr (.inr ⟨_, ‹_›, by cases h; rfl⟩))))

/-! ## Runs of any core -/

/-- A run goes on from the state a step answers. -/
theorem run_of_next {M : Host.Core} (k : Nat) {s t : M.State} (h : M.step s = .next t) : M.run (k + 1) s = M.run k t := by
  simp [Host.Core.run, h]

/-- A run stops at a fault. -/
theorem run_of_fault {M : Host.Core} (k : Nat) {s : M.State} {f : M.Fault} (h : M.step s = .fault f) :
    M.run (k + 1) s = .fault f := by
  simp [Host.Core.run, h]

end Sys2Proof.Machine
end

