-- ==== Sys2Proof/Tests/Slice0.lean ====
section
/-! SUPPORT. Tests on fixed values, expected results from the spec's tables and vectors (95_test_vectors.md), and for every
statement with hypotheses a state and operands that meet them all. -/

namespace Sys2Proof.Tests

open Sys2Proof Sys2Proof.Machine

/-! ## Helpers -/

/-- A configuration with the given capacity and `ERR_BASE = 0x0100` (vector P6). -/
def cfg (capacity : Nat) : Config := { capacity := capacity, errBase := 0x0100, lenW := 16, maxPayload := 0, maxSubject := 0 }

/-- A range of 4 bytes does not fit a length operand of 2 bits. -/
def cfgNarrow : Config := { cfg 16 with lenW := 2 }

/-- A receiver that has accumulated `f`. -/
def holding (capacity : Nat) (esc : Bool) (f : Bytes) : State :=
  { State.resetWith (cfg capacity) with
    rxEsc := esc, rxCursor := f.length, buf := (List.range f.length).zip f }

/-- An idle block whose sink will answer these. -/
def answering (answers : List SinkAnswer) : State := { State.resetWith (cfg 16) with sinkAnswers := answers }

def ok : SinkAnswer := { status := 0x0000#16, delivered := 0 }

/-- The failure of the vectors, with `k` bytes of the burst delivered. -/
def failing (k : Nat) : SinkAnswer := { status := 0x0007#16, delivered := k }

def nextOf : Host.Outcome State Fault Refusal → Option State
  | .next s => some s
  | .fault _ => none
  | .refused _ => none

def faultOf : Host.Outcome State Fault Refusal → Option Fault
  | .next _ => none
  | .fault f => some f
  | .refused _ => none

/-- What an ESC has left after the burst `a`: nothing of "a", the doubled pair of "a\r". -/
def afterA : Emission := { ready := [], read := 1, unread := [], closing := [] }
def afterA_pair : Emission := { ready := [[0x0D#8, 0x0D#8]], read := 2, unread := [], closing := [] }

/-- The RX side of an outcome: flag, cursor, buffer, events. -/
def rxOf (o : Host.Outcome State Fault Refusal) : Option (Bool × Nat × Memory × List RxEvent) :=
  (nextOf o).map fun s => (s.rxEsc, s.rxCursor, s.buf, s.rxEvents)

/-- The TX side of an outcome: bursts, wire, answers. -/
def txOf (o : Host.Outcome State Fault Refusal) : Option (List Burst × Bytes × List TxAnswer) :=
  (nextOf o).map fun s => (s.bursts, s.wire, s.txAnswers)

/-- "00DF M2A" (T14 row 5). -/
def frameM2A : Bytes := [0x30#8, 0x30#8, 0x44#8, 0x46#8, 0x20#8, 0x4D#8, 0x32#8, 0x41#8]

/-- "00DE M2A", the wrong sum (T14 row 12). -/
def frameBadSum : Bytes := [0x30#8, 0x30#8, 0x44#8, 0x45#8, 0x20#8, 0x4D#8, 0x32#8, 0x41#8]

/-- "00DG M2A", not a hex digit (T14 row 13). -/
def frameBadHex : Bytes := [0x30#8, 0x30#8, 0x44#8, 0x47#8, 0x20#8, 0x4D#8, 0x32#8, 0x41#8]

/-- "00E4 M1G", not a sequence digit (T14 row 9). -/
def frameBadSeq : Bytes := [0x30#8, 0x30#8, 0x45#8, 0x34#8, 0x20#8, 0x4D#8, 0x31#8, 0x47#8]

/-- "0101 LO", one byte short (T14 row 3). -/
def frameShort : Bytes := [0x30#8, 0x31#8, 0x30#8, 0x31#8, 0x20#8, 0x4C#8, 0x4F#8]

/-- "te\rst\n" (T2). -/
def textT2 : Bytes := [0x74#8, 0x65#8, 0x0D#8, 0x73#8, 0x74#8, 0x0A#8]

/-! ## Well-formedness: an ill-formed term for each check -/

theorem smoke_lit : Instr.wf (cfg 16) (.lit 0x0D#8) = false := by decide
theorem smoke_escbad_esc : Instr.wf (cfg 16) (.escbad 0x0D#8) = false := by decide
theorem smoke_escbad_term : Instr.wf (cfg 16) (.escbad 0x0A#8) = false := by decide
theorem smoke_csum : Instr.wf cfgNarrow (.csum 0xFFFF#16 [0#8, 0#8, 0#8, 0#8]) = false := by decide
theorem smoke_esc : Instr.wf cfgNarrow (.esc [0#8, 0#8, 0#8, 0#8]) = false := by decide
theorem smoke_sendlog : Instr.wf cfgNarrow (.sendlog .debug [0#8, 0#8, 0#8, 0#8]) = false := by decide
theorem smoke_sendlogRsvd : Instr.wf cfgNarrow (.sendlogRsvd [0#8, 0#8, 0#8, 0#8]) = false := by decide
theorem smoke_txRsvd : Instr.wf cfgNarrow (.txRsvd [0#8, 0#8, 0#8, 0#8]) = false := by decide
theorem smoke_range_fits : Instr.wf cfgNarrow (.esc [0#8, 0#8, 0#8]) = true := by decide

/-! ## Decoding: words written out bit by bit from the encodings of the opcode table -/

theorem test_decode_lit : decodeTableWord 8 0b01000001 = some (.lit 0x41#8) := by decide
theorem test_decode_lit_term : decodeTableWord 8 0b00001010 = some (.lit 0x0A#8) := by decide
theorem test_decode_open : decodeTableWord 8 0b00001101 = none := by decide
theorem test_decode_escesc : decodeTableWord 16 0b0000110100001101 = some .escesc := by decide
theorem test_decode_eof : decodeTableWord 16 0b0000110100001010 = some .eof := by decide
theorem test_decode_escbad : decodeTableWord 16 0b0000110101000010 = some (.escbad 0x42#8) := by decide
theorem test_decode_csum : decodeTableWord 24 0b00000010000111100000 = some (.csum 0x021E#16 []) := by decide
theorem test_decode_esc : decodeTableWord 24 0b10101011110011011101 = some (.esc []) := by decide
theorem test_decode_sendlog_debug : decodeTableWord 24 0b0010 = some (.sendlog .debug []) := by decide
theorem test_decode_sendlog_info : decodeTableWord 24 0b00010010001101000110 = some (.sendlog .info []) := by decide
theorem test_decode_sendlog_error : decodeTableWord 24 0b1010 = some (.sendlog .error []) := by decide
theorem test_decode_sendlogRsvd : decodeTableWord 24 0b1110 = some (.sendlogRsvd []) := by decide
theorem test_decode_txRsvd : decodeTableWord 24 0b0011 = some (.txRsvd []) := by decide
theorem test_decode_rxbyte : decodeTableWord 16 0b000001101 = some (.rxbyte 0x0D#8) := by decide
theorem test_decode_rxinit : decodeTableWord 16 0b111111111 = some .rxinit := by decide
theorem test_decode_two_tokens : decode (.token [0x0D#8, 0x0D#8, 0x0A#8]) = .error .trailingBytes := by decide
theorem test_encode_parse : encode .parse = none := by decide

/-- Rule R77: `0D 0D 0A` is ESCESC, then LIT `0A`. -/
theorem test_cut_greedy : cutStream false 0x0D#8 [0x0D#8, 0x0A#8] = (.escesc, [0x0A#8]) := by decide

/-! ## One step of each operation -/

/-- T15 row 4. -/
theorem test_lit : rxOf (exec (.lit 0x0A#8) (holding 16 false [])) = some (false, 1, [(0, 0x0A#8)], [.none]) := by decide
/-- T6. -/
theorem test_lit_full : rxOf (exec (.lit 0x45#8) (holding 4 false [0x41#8, 0x42#8, 0x43#8, 0x44#8])) =
    some (false, 1, [(0, 0x45#8), (1, 0x42#8), (2, 0x43#8), (3, 0x44#8)], [.errOverflow 4]) := by decide
/-- T15 row 5. -/
theorem test_escesc : rxOf (exec .escesc (holding 16 false [])) = some (false, 1, [(0, 0x0D#8)], [.none, .none]) := by decide
/-- T14 row 5. -/
theorem test_eof : rxOf (exec .eof (holding 64 false frameM2A)) =
    some (false, 0, (holding 64 false frameM2A).buf, [.none, .frameOk 8 0x4D#8 true 0x2A#8]) := by decide
/-- T15 row 13, with `CAPACITY = 1`. -/
theorem test_eof_full : rxOf (exec .eof (holding 1 false [0x41#8])) =
    some (false, 0, [(0, 0x41#8)], [.errOverflow 1, .errMalformed 0]) := by decide
/-- T15 row 8. -/
theorem test_escbad : rxOf (exec (.escbad 0x42#8) (holding 16 false [0x41#8])) =
    some (false, 0, [(0, 0x41#8)], [.none, .errProtocol 1 0x42#8]) := by decide
/-- T11 row 4: a byte is unsigned, the sum wraps. -/
theorem test_csum : txOf (exec (.csum 0xFFFF#16 [0xFF#8]) (answering [])) =
    some ([], [], [{ status := 0#16, result := some 0x00FE#16 }]) := by decide
/-- T11 row 8. -/
theorem test_csum_digits :
    csum 0xFFFF#16 [0x31#8, 0x32#8, 0x33#8, 0x34#8, 0x35#8, 0x36#8, 0x37#8, 0x38#8, 0x39#8] = 0x01DC#16 := by decide
/-- T12 row 5. -/
theorem test_esc : txOf (exec (.esc [0x0D#8, 0x61#8, 0x62#8, 0x0D#8]) (answering [ok, ok, ok])) =
    some ([[0x0D#8, 0x0D#8], [0x61#8, 0x62#8], [0x0D#8, 0x0D#8]], [0x0D#8, 0x0D#8, 0x61#8, 0x62#8, 0x0D#8, 0x0D#8],
      [{ status := 0#16, result := none }]) := by decide
/-- T12 row 7, with one byte of the failed burst delivered. -/
theorem test_esc_fails : txOf (exec (.esc [0x61#8, 0x0D#8, 0x62#8]) (answering [ok, failing 1])) =
    some ([[0x61#8], [0x0D#8, 0x0D#8]], [0x61#8, 0x0D#8], [{ status := 0x0007#16, result := none }]) := by decide
/-- T16 row 4. -/
theorem test_sendlog : (txOf (exec (.sendlog .error [0x61#8, 0x0D#8, 0x62#8, 0x0A#8, 0x63#8])
      (answering [ok, ok, ok, ok, ok]))).map (fun r => (r.1, r.2.2)) =
    some ([[0x30#8, 0x33#8, 0x36#8, 0x37#8, 0x20#8, 0x4C#8, 0x4F#8, 0x47#8, 0x20#8, 0x45#8, 0x52#8, 0x52#8, 0x20#8], [0x61#8],
      [0x0D#8, 0x0D#8], [0x62#8, 0x0A#8, 0x63#8], [0x0D#8, 0x0A#8]], [{ status := 0#16, result := none }]) := by decide
/-- P5 step 1: the hard terminator fails with one byte delivered. -/
theorem test_sendlog_fails : txOf (exec (.sendlog .info [0x74#8, 0x65#8, 0x73#8, 0x74#8]) (answering [ok, ok, failing 1])) =
    some ([[0x30#8, 0x33#8, 0x44#8, 0x45#8, 0x20#8, 0x4C#8, 0x4F#8, 0x47#8, 0x20#8, 0x49#8, 0x4E#8, 0x46#8, 0x20#8],
        [0x74#8, 0x65#8, 0x73#8, 0x74#8], [0x0D#8, 0x0A#8]],
      [0x30#8, 0x33#8, 0x44#8, 0x45#8, 0x20#8, 0x4C#8, 0x4F#8, 0x47#8, 0x20#8, 0x49#8, 0x4E#8, 0x46#8, 0x20#8, 0x74#8, 0x65#8,
        0x73#8, 0x74#8, 0x0D#8],
      [{ status := 0x0007#16, result := none }]) := by decide
/-- P6 step 2: `E_LEVEL`, in the middle of a received frame, which stays. -/
theorem test_sendlogRsvd :
    (nextOf (exec (.sendlogRsvd [0x78#8]) (holding 16 true [0x41#8]))).map (fun s => (s.bursts, s.txAnswers, s.rxEsc, s.rxCursor)) =
      some ([], [{ status := 0x0108#16, result := none }], true, 1) := by decide
/-- P6 step 1: `E_BADCMD`. -/
theorem test_txRsvd :
    txOf (exec (.txRsvd []) (answering [])) = some ([], [], [{ status := 0x0109#16, result := none }]) := by decide
/-- T15 row 12, with `CAPACITY = 2`: the full test comes before the escape byte is looked at. -/
theorem test_rxbyte_full : rxOf (exec (.rxbyte 0x0D#8) (holding 2 false [0x41#8, 0x41#8])) =
    some (true, 0, [(0, 0x41#8), (1, 0x41#8)], [.errOverflow 2]) := by decide
/-- T13: "00CF M12" has sequence value `0x12`, not `0x03`. -/
theorem test_rxbyte_sequence : (rxOf (exec (.rxbyte 0x0A#8)
      (holding 64 true [0x30#8, 0x30#8, 0x43#8, 0x46#8, 0x20#8, 0x4D#8, 0x31#8, 0x32#8]))).map (fun r => r.2.2.2) =
    some [.frameOk 8 0x4D#8 true 0x12#8] := by decide
/-- The example of rule R141. -/
theorem test_rxinit : rxOf (exec .rxinit (holding 16 true [0x41#8])) = some (false, 0, [(0, 0x41#8)], [.none]) := by decide
/-- T14 row 12: the wrong sum; PARSE on its own resets nothing. -/
theorem test_parse_checksum : rxOf (exec .parse (holding 64 true frameBadSum)) =
    some (true, 8, (holding 64 true frameBadSum).buf, [.errChecksum 8]) := by decide
/-- T14 rows 9, 13 and 3. -/
theorem test_parse_events : parse (holding 64 true frameBadSeq) = .ok (.frameOk 8 0x4D#8 false 0x00#8) ∧
    parse (holding 64 true frameBadHex) = .ok (.errHexdigit 8) ∧ parse (holding 64 true frameShort) = .ok (.errMalformed 7) := by
  decide
/-- T14 row 11: "FFFF" and four zero bytes. -/
theorem test_parse_zeros :
    parse (holding 64 true [0x46#8, 0x46#8, 0x46#8, 0x46#8, 0#8, 0#8, 0#8, 0#8]) = .ok (.frameOk 8 0x00#8 false 0x00#8) := by
  decide

/-! ## Functions, words and the step -/

/-- T18. -/
theorem test_hex4 : hex4 0xA0B1#16 = [0x41#8, 0x30#8, 0x42#8, 0x31#8] := by decide
/-- T18. -/
theorem test_unhex : unhex4 0x66#8 0x46#8 0x66#8 0x46#8 = some 0xFFFF#16 ∧ unhex2 0x31#8 0x32#8 = some 0x12#8 ∧
    isHex 0x47#8 = false ∧ isHex 0x60#8 = false := by decide
/-- T17: `CAPACITY = 32`. -/
theorem test_word_frameOk : ((RxEvent.frameOk 17 0x4C#8 false 0x00#8).word (cfg 32)).toNat = 0x9889 := by decide
/-- T17: `CAPACITY = 32`. -/
theorem test_word_protocol : ((RxEvent.errProtocol 14 0x62#8).word (cfg 32)).toNat = 0x188000075 := by decide
/-- T17: `CAPACITY = 12`. -/
theorem test_word_sequence : ((RxEvent.frameOk 11 0x51#8 true 0x7F#8).word (cfg 12)).toNat = 0x7FA8D9 := by decide
/-- T17 and P3: `CAPACITY = 16`, so `CUR_W = 5`. -/
theorem test_word_overflow : (cfg 16).curW = 5 ∧ ((RxEvent.errOverflow 16).word (cfg 16)).toNat = 0x84 := by decide
theorem test_step_token : rxOf (step (State.reset.withFetchWord 16 0x0D42)) =
    some (false, 0, [], [.none, .errProtocol 0 0x42#8]) := by decide
theorem test_step_tx : txOf (step (State.reset.withFetchWord 24 0x00001)) =
    some ([], [], [{ status := 0#16, result := none }]) := by decide
/-- T16 row 1, from its word: `SENDLOG DBG, ""` sends "020E LOG DBG " and the hard terminator. -/
theorem test_step_sends_debug : (txOf (step ((answering [ok, ok]).withFetchWord 24 0x00002))).map (fun r => r.1) =
    some [[0x30#8, 0x32#8, 0x30#8, 0x45#8, 0x20#8, 0x4C#8, 0x4F#8, 0x47#8, 0x20#8, 0x44#8, 0x42#8, 0x47#8, 0x20#8],
      [0x0D#8, 0x0A#8]] := by decide
theorem test_step_waits : (nextOf (step (State.reset.withFetchWord 24 0x00006))).map (fun s => (s.bursts.length, s.txAnswers)) =
    some (1, []) := by decide
/-- Rule R240: the message "a" turned to "b" after the header, with the checksum of "a", was presented; "b" goes out. -/
theorem test_message_changes : (nextOf (step { answering [] with
      tx := .waiting (.sendlog 0x027F#16 (logHeader .info [0x61#8])) (logHeader .info [0x61#8])
        (({ logEmission .info [0x61#8] with ready := [] } : Emission).change 0 0x62#8), inbox := [.sink ok] })).map
      (fun s => (s.bursts, s.wire)) =
    some ([[0x62#8]],
      [0x30#8, 0x32#8, 0x37#8, 0x46#8, 0x20#8, 0x4C#8, 0x4F#8, 0x47#8, 0x20#8, 0x49#8, 0x4E#8, 0x46#8, 0x20#8]) := by decide
/-- Rule R237: "00DF M2A" becomes "00DF M2B" in `buf` before its EOF, and PARSE sees the new byte. -/
theorem test_buffer_changes : (rxOf (exec (.rxbyte 0x0A#8) ((holding 64 true frameM2A).hostWrite 7 0x42#8))).map
    (fun r => r.2.2.2) = some [.errChecksum 8] := by decide
theorem test_step_reset_input : rxOf (step ((holding 16 true [0x41#8]).withInbox [.reset])) =
    some (false, 0, [(0, 0x41#8)], [.none]) := by decide
theorem test_step_second_tx :
    faultOf (step { answering [] with tx := .waiting .esc [0x61#8] afterA, inbox := [.tx 0x00000#20 []] }) = some .txBusy := by decide

/-! ## Witnesses: for each statement with hypotheses, what meets them -/

theorem wit_DecodeEncodeRoundTrip :
    Instr.wf (cfg 16) (.escbad 0x00#8) = true ∧ Instr.wf (cfg 16) (.escbad 0xFF#8) = true ∧
    Instr.wf (cfg 16) (.lit 0x0A#8) = true ∧ Instr.wf cfgNarrow (.csum 0xFFFF#16 [0#8, 0#8, 0#8]) = true ∧
    Instr.escbad 0x00#8 ≠ .parse := by decide

theorem wit_DecodedOperationsReencode :
    decode (.txc 0xABCDD#20 [0x61#8]) = .ok (.esc [0x61#8]) ∧ decode (.rxc 0x1FF#9) = .ok .rxinit ∧
    decode (.token [0x0D#8, 0xFF#8]) = .ok (.escbad 0xFF#8) := by decide

theorem wit_HexDigitTables : (9#4).toNat ≤ 9 ∧ 10 ≤ (10#4).toNat ∧ isHex 0x2F#8 = false ∧ isHex 0x3A#8 = false ∧
    0x30 ≤ (0x30#8 : Byte).toNat ∧ (0x39#8 : Byte).toNat ≤ 0x39 ∧ 0x41 ≤ (0x41#8 : Byte).toNat ∧
    (0x46#8 : Byte).toNat ≤ 0x46 ∧ 0x61 ≤ (0x61#8 : Byte).toNat ∧ (0x66#8 : Byte).toNat ≤ 0x66 := by decide

theorem wit_HexFieldsShiftAndCombine : (0xA0B1#16).toNat = (0xA#4).toNat * 4096 + (0#4).toNat * 256 + (0xB#4).toNat * 16 + (1#4).toNat ∧
    hexVal 0x30#8 = some 0#4 ∧ hexVal 0x39#8 = some 9#4 ∧ hexVal 0x41#8 = some 10#4 ∧
    hexVal 0x66#8 = some 15#4 := by decide

/-- T11 row 13: "ab" and "ba". -/
theorem wit_ChecksumIsIncremental : (([0x61#8, 0x62#8] : Bytes).map BitVec.toNat).sum = (([0x62#8, 0x61#8] : Bytes).map BitVec.toNat).sum := by
  decide

theorem wit_EscapeAddsOneBytePerEscape : ([0x74#8, 0x0A#8] : Bytes).count escByte = 0 := by decide

theorem wit_EscapeConcatenates : (0x61#8 : Byte) ≠ escByte ∧ (0x0A#8 : Byte) ≠ escByte := by decide

theorem wit_BurstsAreTheMaximalRuns : [escByte, escByte] ∈ escBursts textT2 ∧ escByte ∈ [escByte, escByte] := by decide

theorem wit_CsumAnswersTheChecksum : (answering []).tx = .idle := by decide

theorem wit_EscSendsTheEscapedRange : (answering [ok, ok, ok, failing 0]).tx = .idle ∧
    (answering [ok, ok, ok, failing 0]).sinkAnswers = [ok, ok, ok] ++ [failing 0] ∧
    [ok, ok, ok].length = (escBursts textT2).length ∧ AllOk [ok, ok, ok] := by unfold AllOk; decide

/-- The empty range asks the sink nothing (T12 row 9). -/
theorem wit_EscSendsTheEscapedRange_empty : (answering [failing 0]).tx = .idle ∧
    (answering [failing 0]).sinkAnswers = [] ++ [failing 0] ∧ ([] : List SinkAnswer).length = (escBursts []).length ∧ AllOk [] := by
  unfold AllOk; decide

theorem wit_SendlogSendsTheFrame : (answering [ok, ok]).tx = .idle ∧ (answering [ok, ok]).sinkAnswers = [ok, ok] ++ [] ∧
    [ok, ok].length = (escBursts []).length + 2 ∧ AllOk [ok, ok] ∧
    ((Level.debug = .debug ∧ ([0x44#8, 0x42#8, 0x47#8] : Bytes) = [0x44#8, 0x42#8, 0x47#8]) ∧
      (Level.info = .info ∧ ([0x49#8, 0x4E#8, 0x46#8] : Bytes) = [0x49#8, 0x4E#8, 0x46#8]) ∧
      Level.error = .error ∧ ([0x45#8, 0x52#8, 0x52#8] : Bytes) = [0x45#8, 0x52#8, 0x52#8]) := by unfold AllOk; decide

/-- T12 row 7 and T16 row 8. -/
theorem wit_SinkFailureEndsTheOperation :
    ((∃ m, Instr.esc [0x61#8, 0x0D#8, 0x62#8] = .esc m ∧ escBursts [0x61#8, 0x0D#8, 0x62#8] = escBursts m) ∧
      (answering [ok, failing 1]).tx = .idle ∧ (answering [ok, failing 1]).sinkAnswers = [ok] ++ failing 1 :: [] ∧ AllOk [ok] ∧
      (failing 1).status ≠ 0#16 ∧ (escBursts [0x61#8, 0x0D#8, 0x62#8])[[ok].length]? = some [0x0D#8, 0x0D#8]) ∧
    (∃ level m, Instr.sendlog .debug [] = .sendlog level m ∧ logBursts .debug [] = logBursts level m) ∧
      (answering [ok, failing 2]).sinkAnswers = [ok] ++ failing 2 :: [] ∧
      (logBursts .debug [])[[ok].length]? = some hardTerminator := by
  refine ⟨⟨⟨_, rfl, rfl⟩, by unfold AllOk; decide⟩, ⟨_, _, rfl, rfl⟩, by decide⟩

theorem wit_OperationWaitsForTheSink :
    ((Instr.esc [0x61#8] = .esc [0x61#8] ∧ escBursts [0x61#8] = escBursts [0x61#8] ∧ TxUse.esc = .esc) ∧ (answering []).tx = .idle ∧
      AllOk (answering []).sinkAnswers ∧ (escBursts [0x61#8])[(answering []).sinkAnswers.length]? = some [0x61#8]) ∧
    AllOk (answering [ok]).sinkAnswers ∧ (logBursts .info [])[(answering [ok]).sinkAnswers.length]? = some hardTerminator := by
  unfold AllOk; decide

/-- Two writes, one to the escape byte, between the passes of `SENDLOG INF, "a\r"`. -/
theorem wit_ChangedMessageKeepsTheOldChecksum : (answering []).tx = .idle ∧ (answering []).sinkAnswers = [] ∧ AllOk [ok, ok, ok] ∧
    ([0x62#8, 0x63#8] : Bytes) = [(0, 0x62#8), (1, 0x63#8)].foldl (fun l w => l.set w.1 w.2) [0x61#8, 0x0D#8] ∧
    [ok, ok, ok].length = (escBursts [0x62#8, 0x63#8]).length + 2 ∧
    RxAtReset (holding 16 false []) ∧ 14 + ([0x61#8, 0x0D#8] : Bytes).length ≤ (holding 16 false []).cfg.capacity ∧
    csum 0xFFFF#16 [0x62#8, 0x63#8] ≠ csum 0xFFFF#16 [0x61#8, 0x0D#8] ∧
    csum 0xFFFF#16 [0x62#8, 0x61#8] = csum 0xFFFF#16 [0x61#8, 0x62#8] := by unfold AllOk RxAtReset; decide

/-- The first and the last byte not read yet, and a byte read before. -/
theorem wit_MessageWriteReachesUnreadBytes :
    ((answering []).withInbox [.msgWrite 0 0x62#8]).inbox = .msgWrite 0 0x62#8 :: [] ∧ (answering []).tx = .idle ∧
    ({ answering [] with tx := .waiting .esc [0x61#8] { afterA with unread := [0x62#8, 0x63#8] } } : State).tx =
      .waiting .esc [0x61#8] { afterA with unread := [0x62#8, 0x63#8] } ∧
    (Emission.change { afterA with unread := [0x62#8, 0x63#8] } 0 0x64#8).unread = [0x62#8, 0x63#8] ∧
    (Emission.change { afterA with unread := [0x62#8, 0x63#8] } 1 0x64#8).unread = [0x64#8, 0x63#8] ∧
    (Emission.change { afterA with unread := [0x62#8, 0x63#8] } 2 0x64#8).unread = [0x62#8, 0x64#8] := by decide

theorem wit_LateSinkAnswersCountAlike : onTx (.esc [0x61#8]) = true ∧ ∃ t, exec (.esc [0x61#8]) (answering []) = .next t :=
  ⟨rfl, _, rfl⟩

theorem wit_ReservedLevelIsRefused : (holding 16 true [0x41#8]).tx = .idle := by decide

/-- T17: `0xFFFFF` and `0x0000E`; seeds and levels differ where they are ignored. -/
theorem wit_ReservedCommandWordsDoNothing :
    ((answering []).withInbox [.tx 0xFFFFF#20 []]).tx = .idle ∧
    ((answering []).withInbox [.tx 0xFFFFF#20 []]).inbox = .tx 0xFFFFF#20 [] :: [] ∧ txOpField 0xFFFFF#20 = 3#2 ∧
    txOpField 0x0000E#20 = 2#2 ∧ txLevelField 0x0000E#20 = 3#2 ∧
    txOpField 0xABCDD#20 = txOpField 0x00001#20 ∧ txOpField 0x12346#20 = 2#2 ∧ txOpField 0x12346#20 = txOpField 0x00006#20 ∧
    txLevelField 0x12346#20 = txLevelField 0x00006#20 ∧ txOpField 0x021E0#20 = 0#2 ∧
    txOpField 0x021EC#20 = txOpField 0x021E0#20 ∧ txSeedField 0x021EC#20 = txSeedField 0x021E0#20 := by decide

theorem wit_SecondTxCommandStops : onTx (.csum 0#16 []) = true ∧
    ({ answering [] with tx := .waiting .esc [0x61#8] afterA } : State).tx = .waiting .esc [0x61#8] afterA := by decide

theorem wit_TxOperationFrame : onTx (.esc [0x61#8]) = true ∧ (∃ t, exec (.esc [0x61#8]) (answering [ok]) = .next t) ∧
    onTx (.txRsvd []) = true ∧ (∃ t, exec (.txRsvd []) (answering [ok]) = .next t) ∧ (∀ m, Instr.txRsvd [] ≠ .esc m) ∧
    ∀ level m, Instr.txRsvd [] ≠ .sendlog level m := by
  refine ⟨rfl, ⟨_, rfl⟩, rfl, ⟨_, rfl⟩, ?_, ?_⟩ <;> simp

theorem wit_PathsShareNoState : (∃ t, exec (.esc [0x61#8]) (answering [ok]) = .next t) ∧ onTx (.esc [0x61#8]) = true ∧
    (∃ t, exec .eof (holding 64 false frameM2A) = .next t) ∧ onTx .eof = false := ⟨⟨_, rfl⟩, rfl, ⟨_, rfl⟩, rfl⟩

theorem wit_PathsInterleaveFreely : onTx (.esc [0x61#8]) = true ∧ onTx .escesc = false ∧
    (∃ t, exec (.esc [0x61#8]) (answering [ok]) = .next t) ∧ ∃ u, exec .escesc (answering [ok]) = .next u :=
  ⟨rfl, rfl, ⟨_, rfl⟩, ⟨_, rfl⟩⟩

/-- The second clause with an ESC waiting for the sink. -/
theorem wit_PathsInterleaveFreely_waiting : onTx .escesc = false ∧
    (∃ u, exec .escesc { answering [] with tx := .waiting .esc [0x61#8] afterA_pair, bursts := [[0x61#8]] } = .next u) ∧
    ({ answering [] with tx := .waiting .esc [0x61#8] afterA_pair, bursts := [[0x61#8]] } : State).tx ≠ .idle :=
  ⟨rfl, ⟨_, rfl⟩, by decide⟩

/-- Each clause at a boundary: the cursor at `CAPACITY - 1` and at `CAPACITY`, `CAPACITY` 1 and 2. -/
theorem wit_RxbyteCases :
    ((holding 2 false [0x41#8]).rxEsc = false ∧ (holding 2 false [0x41#8]).rxCursor < (holding 2 false [0x41#8]).cfg.capacity ∧
      (0x0D#8 : Byte) = escByte ∧ (0x0A#8 : Byte) ≠ escByte) ∧
    ((holding 1 false [0x41#8]).rxEsc = false ∧ (holding 1 false [0x41#8]).rxCursor = (holding 1 false [0x41#8]).cfg.capacity ∧
      1 ≤ (holding 1 false [0x41#8]).cfg.capacity) ∧
    ((holding 2 true [0x41#8]).rxEsc = true ∧ (holding 2 true [0x41#8]).rxCursor < (holding 2 true [0x41#8]).cfg.capacity) ∧
    ((holding 64 true frameM2A).rxEsc = true ∧ (0x0A#8 : Byte) = termByte ∧
      parse (holding 64 true frameM2A) = .ok (.frameOk 8 0x4D#8 true 0x2A#8)) ∧
    (0x0C#8 : Byte) ≠ escByte ∧ (0x0C#8 : Byte) ≠ termByte := by decide

theorem wit_TokenEffects :
    ((holding 2 false [0x41#8]).rxEsc = false ∧ (holding 2 false [0x41#8]).rxCursor < (holding 2 false [0x41#8]).cfg.capacity ∧
      parse (holding 2 false [0x41#8]) = .ok (.errMalformed 1) ∧ (0x0A#8 : Byte) ≠ escByte ∧ (0x0B#8 : Byte) ≠ termByte) ∧
    (holding 1 false [0x41#8]).rxEsc = false ∧ (holding 1 false [0x41#8]).rxCursor = (holding 1 false [0x41#8]).cfg.capacity ∧
    1 ≤ (holding 1 false [0x41#8]).cfg.capacity := by decide

theorem wit_ParseJudgesTheFrame :
    Holds (holding 7 true frameShort) frameShort ∧ frameShort.length < 8 ∧
    Holds (holding 8 true frameBadHex) frameBadHex ∧ unhex4 0x30#8 0x30#8 0x44#8 0x47#8 = none ∧
    Holds (holding 8 true frameBadSum) frameBadSum ∧ unhex4 0x30#8 0x30#8 0x44#8 0x45#8 = some 0x00DE#16 ∧
    0x00DE#16 ≠ csum 0xFFFF#16 [0x20#8, 0x4D#8, 0x32#8, 0x41#8] ∧
    Holds (holding 8 true frameM2A) frameM2A ∧ 0x00DF#16 = csum 0xFFFF#16 [0x20#8, 0x4D#8, 0x32#8, 0x41#8] ∧
    unhex2 0x32#8 0x41#8 = some 0x2A#8 ∧ Holds (holding 8 true frameBadSeq) frameBadSeq ∧
    0x00E4#16 = csum 0xFFFF#16 [0x20#8, 0x4D#8, 0x31#8, 0x47#8] ∧ unhex2 0x31#8 0x47#8 = none := by
  unfold Holds; decide

/-- The last index of `buf`, the first beyond it, and a frame held there. -/
theorem wit_BufferWriteIsNotDetected :
    ((holding 2 true [0x41#8, 0x42#8]).withInbox [.bufWrite 1 0x43#8]).inbox = .bufWrite 1 0x43#8 :: [] ∧
    1 < (holding 2 true [0x41#8, 0x42#8]).cfg.capacity ∧ (holding 2 true [0x41#8, 0x42#8]).cfg.capacity ≤ 2 ∧
    Holds (holding 2 true [0x41#8, 0x42#8]) [0x41#8, 0x42#8] := by unfold Holds; decide

theorem wit_RxOperationFrame : onTx (.lit 0x41#8) = false ∧ (∃ t, exec (.lit 0x41#8) (holding 1 false [0x41#8]) = .next t) ∧
    storeIndex 0x41#8 (holding 1 false [0x41#8]) = some 0 ∧ (∃ t, exec .escesc (holding 2 false [0x41#8]) = .next t) ∧
    (∃ t, exec .rxinit (holding 2 true [0x41#8]) = .next t) ∧ (∃ t, exec .parse (holding 64 true frameM2A) = .next t) ∧
    storeIndex escByte (holding 2 true [0x41#8]) = some 1 :=
  ⟨rfl, ⟨_, rfl⟩, by decide, ⟨_, rfl⟩, ⟨_, rfl⟩, ⟨_, rfl⟩, by decide⟩

theorem wit_RxStateInvariants : 1 ≤ (cfg 1).capacity ∧ onTx (.rxbyte 0x0D#8) = false ∧
    1 ≤ (holding 2 true [0x41#8]).cfg.capacity ∧ (holding 2 true [0x41#8]).rxCursor ≤ (holding 2 true [0x41#8]).cfg.capacity ∧
    ((holding 2 true [0x41#8]).rxEsc = true → (holding 2 true [0x41#8]).rxCursor < (holding 2 true [0x41#8]).cfg.capacity) ∧
    ∃ t, exec (.rxbyte 0x0D#8) (holding 2 true [0x41#8]) = .next t :=
  ⟨by decide, rfl, by decide, by decide, by decide, _, rfl⟩

/-- T7: a text of exactly `CAPACITY` bytes, and one with room for the terminator. -/
theorem wit_EscapedBytesRoundTrip : RxAtReset (holding 6 false []) ∧ textT2.length ≤ (holding 6 false []).cfg.capacity ∧
    RxAtReset (holding 7 false []) ∧ textT2.length < (holding 7 false []).cfg.capacity := by unfold RxAtReset; decide

/-- The smallest capacity of rule R127. -/
theorem wit_LogFrameIsReceived : RxAtReset (holding 14 false []) ∧ 14 + ([] : Bytes).length ≤ (holding 14 false []).cfg.capacity := by
  unfold RxAtReset; decide

theorem wit_SentLogFrameIsAccepted : (answering [ok, ok, ok]).tx = .idle ∧ AllOk (answering [ok, ok, ok]).sinkAnswers ∧
    (escBursts [0x74#8]).length + 2 ≤ (answering [ok, ok, ok]).sinkAnswers.length ∧ RxAtReset (holding 15 false []) ∧
    14 + ([0x74#8] : Bytes).length ≤ (holding 15 false []).cfg.capacity := by unfold AllOk RxAtReset; decide

/-- "00DF M2A" meets the right side of the equivalence at `CAPACITY = 9`, the least that can accept it. -/
theorem wit_AcceptedFrames : RxAtReset (holding 9 false []) ∧ 8 ≤ frameM2A.length ∧
    frameM2A.length + 1 ≤ (holding 9 false []).cfg.capacity ∧
    unhex4 0x30#8 0x30#8 0x44#8 0x46#8 = some (csum 0xFFFF#16 [0x20#8, 0x4D#8, 0x32#8, 0x41#8]) := by unfold RxAtReset; decide

/-- T15 row 15, with `CAPACITY = 2`. -/
theorem wit_FullLengthFrameIsLost : RxAtReset (holding 2 false []) ∧ ([0x41#8, 0x0D#8] : Bytes).length = (holding 2 false []).cfg.capacity := by
  unfold RxAtReset; decide

theorem wit_ResetForgetsHistory :
    ((holding 64 true frameM2A).rxEsc = true ∧ termByte ≠ escByte ∧ ∃ t, exec (.rxbyte termByte) (holding 64 true frameM2A) = .next t) ∧
    (∃ t, exec .rxinit (holding 2 true [0x41#8]) = .next t) ∧
    ((holding 1 false [0x41#8]).rxEsc = false ∧ (holding 1 false [0x41#8]).cfg.capacity ≤ (holding 1 false [0x41#8]).rxCursor ∧
      (∃ t, exec (.rxbyte 0x0D#8) (holding 1 false [0x41#8]) = .next t) ∧
      ∃ t, exec (.rxbyte 0x42#8) (holding 1 false [0x41#8]) = .next t) ∧
    SameFrame (holding 4 false [0x41#8]) { holding 4 false [0x41#8, 0x42#8] with rxCursor := 1 } ∧
    (holding 4 false [0x41#8]).rxCursor ≤ (holding 4 false [0x41#8]).cfg.capacity ∧
    ∃ t, rxChunk [0x0D#8, 0x0D#8] (holding 4 false [0x41#8]) = .ok t :=
  ⟨⟨rfl, by decide, _, rfl⟩, ⟨_, rfl⟩, ⟨rfl, by decide, ⟨_, rfl⟩, ⟨_, rfl⟩⟩, by unfold SameFrame; decide, by decide, _, rfl⟩

theorem wit_EventsAreOutputsOnly : (∃ b, Instr.rxbyte 0x0D#8 = .rxbyte b) ∧
    (∃ t, exec (.rxbyte 0x0D#8) (holding 1 false [0x41#8]) = .next t) ∧ ∃ t, exec .rxinit (holding 1 false [0x41#8]) = .next t :=
  ⟨⟨_, rfl⟩, ⟨_, rfl⟩, ⟨_, rfl⟩⟩

/-- Every kind of event occurs; the last two rows are the boundary between `NONE` and `ERR_OVERFLOW` in `NORMAL`. -/
theorem wit_EventFields :
    (rxOf (exec (.rxbyte 0x0A#8) (holding 8 true frameShort))).map (fun r => r.2.2.2) = some [.errMalformed 7] ∧
    (rxOf (exec (.rxbyte 0x0A#8) (holding 9 true frameM2A))).map (fun r => r.2.2.2) = some [.frameOk 8 0x4D#8 true 0x2A#8] ∧
    (rxOf (exec (.rxbyte 0x0A#8) (holding 9 true frameBadSeq))).map (fun r => r.2.2.2) = some [.frameOk 8 0x4D#8 false 0x00#8] ∧
    (rxOf (exec (.rxbyte 0x0A#8) (holding 9 true frameBadSum))).map (fun r => r.2.2.2) = some [.errChecksum 8] ∧
    (rxOf (exec (.rxbyte 0x0A#8) (holding 9 true frameBadHex))).map (fun r => r.2.2.2) = some [.errHexdigit 8] ∧
    (rxOf (exec (.rxbyte 0x00#8) (holding 9 true frameM2A))).map (fun r => r.2.2.2) = some [.errProtocol 8 0x00#8] ∧
    (rxOf (exec (.rxbyte 0x0D#8) (holding 1 false [0x41#8]))).map (fun r => r.2.2.2) = some [.errOverflow 1] ∧
    (rxOf (exec (.rxbyte 0x0D#8) (holding 2 false [0x41#8]))).map (fun r => r.2.2.2) = some [.none] ∧
    (holding 9 true frameM2A).rxCursor ≤ (holding 9 true frameM2A).cfg.capacity := by decide

/-- The greatest `ERR_BASE`, and an operation of which each kind of status comes. -/
theorem wit_StatusCodes : ({ cfg 1 with errBase := 65526 } : Config).wf ∧ (∃ t, exec (.esc [0x61#8]) (answering [failing 0]) = .next t) ∧
    ∃ t, exec (.txRsvd []) (answering []) = .next t := ⟨by decide, ⟨_, rfl⟩, ⟨_, rfl⟩⟩

/-- A step in which a late failure of the sink ends a waiting operation with the sink's status. -/
theorem wit_StatusCodes_late : txOf (step { answering [] with
      tx := .waiting .esc [0x61#8] afterA, bursts := [[0x61#8]], inbox := [.sink (failing 0)] }) =
    some ([[0x61#8]], [], [{ status := 0x0007#16, result := none }]) := by decide

theorem wit_EventWordLayout : (RxEvent.errOverflow 16).lenField ≤ (cfg 16).capacity ∧
    (RxEvent.frameOk 15 0xFF#8 true 0xFF#8).lenField ≤ (cfg 16).capacity ∧ RxEvent.none.lenField ≤ (cfg 1).capacity := by decide

theorem wit_StepRunsTheDecodedOperation : decode (.token [0x0D#8, 0x0A#8]) = .ok .eof ∧ decode (.txc 0x0000E#20 []) = .ok (.sendlogRsvd []) ∧
    decode (.rxc 0x041#9) = .ok (.rxbyte 0x41#8) ∧
    ((answering []).withInbox [.chunk [0x0D#8, 0x0D#8, 0x0A#8]]).rxEsc = false ∧
    decodeToken [0x0D#8, 0x0D#8, 0x0A#8] = .ok (.escesc, [0x0A#8]) ∧ decodeTableWord 16 0x0D0A = some .eof := by decide

theorem wit_StepRunsTheDecodedOperation_inbox :
    ((answering []).withInbox [.tx 0x00001#20 [0x61#8]]).inbox = .tx 0x00001#20 [0x61#8] :: [] ∧
    ((answering []).withInbox [.rx 0x100#9]).inbox = .rx 0x100#9 :: [] ∧
    ((answering []).withInbox [.chunk [0x0D#8, 0x0D#8, 0x0A#8]]).inbox = .chunk (0x0D#8 :: [0x0D#8, 0x0A#8]) :: [] := by decide

theorem wit_NothingPresentedNothingDone : State.reset.inbox = [] := by decide

theorem wit_HardwareResetIsRxinit : ((holding 2 true [0x41#8]).withInbox [.reset]).tx = .idle ∧
    ((holding 2 true [0x41#8]).withInbox [.reset]).inbox = .reset :: [] := by decide

/-- An ESC waiting for the answer to its only burst, which is on the record. -/
def waitingState : State :=
  { holding 2 true [0x41#8] with
    tx := .waiting .esc [0x61#8] afterA_pair, bursts := [[0x61#8]], inbox := [.reset] }

theorem wit_CutOperationSendsAPrefix : waitingState.tx = .waiting .esc [0x61#8] afterA_pair ∧ waitingState.inbox = .reset :: [] := by
  decide

theorem wit_ConfigurationNeverChanges : ∃ t, step ((holding 2 true [0x41#8]).withInbox [.rx 0x100#9]) = .next t := ⟨_, rfl⟩

theorem wit_RxInv : RxInv waitingState := ⟨by decide, by decide, by decide, by decide, by decide⟩

theorem wit_EveryOperationCompletes : onTx .eof = false ∧ 1 ≤ waitingState.cfg.capacity ∧ RxInv waitingState ∧
    onTx (.csum 0#16 []) = true ∧ (answering []).tx = .idle := ⟨rfl, by decide, wit_RxInv, rfl, rfl⟩

theorem wit_InvariantAtReset : (cfg 1).wf := by decide

theorem wit_BlockInv : BlockInv waitingState :=
  ⟨by decide, wit_RxInv, by decide, rfl, by decide, ⟨[], rfl, by simp [waitingState, holding, State.resetWith]⟩, by simp⟩

theorem wit_StepKeepsTheInvariant : BlockInv waitingState ∧ ∃ t, step waitingState = .next t := ⟨wit_BlockInv, _, rfl⟩

/-- Both sides: a reset input is no overlap, a TX command is. -/
theorem wit_OnlyOverlapStops : BlockInv waitingState ∧ ¬ TxOverlap waitingState ∧
    BlockInv (waitingState.withInbox [.tx 0x00000#20 []]) ∧ TxOverlap (waitingState.withInbox [.tx 0x00000#20 []]) :=
  ⟨wit_BlockInv, by simp [TxOverlap, waitingState],
    ⟨by decide, ⟨by decide, by decide, by decide, by decide, by decide⟩, by decide, rfl, by decide,
      ⟨[], rfl, by simp [waitingState, holding, State.withInbox, State.resetWith]⟩, by simp⟩,
    ⟨_, _, _, rfl⟩, _, _, _, rfl⟩

theorem wit_ReachableStatesKeepTheInvariant : (cfg 16).wf ∧ Reachable (cfg 16) (State.resetWith (cfg 16)) := ⟨by decide, .reset⟩

end Sys2Proof.Tests
end

section
/-! PROOFS. The invariant of the block: what each state operation keeps of it, then what every operation and every step keeps. -/

namespace Sys2Proof.Machine

/-! ## The invariant of the receiver -/

/-- The receiver's invariant speaks of the configuration, the flag, the cursor and the buffer, nothing else. -/
theorem RxInv.congr {s t : State} (h : RxInv s) (hc : t.cfg = s.cfg) (he : t.rxEsc = s.rxEsc)
    (hn : t.rxCursor = s.rxCursor) (hb : t.buf = s.buf) : RxInv t where
  cursor_le := hc ▸ hn ▸ h.cursor_le
  esc_lt := hc ▸ hn ▸ he ▸ h.esc_lt
  buf_wf := hb ▸ h.buf_wf
  buf_inside := hc ▸ hb ▸ h.buf_inside
  written := hn ▸ hb ▸ h.written

theorem rxInv_resetWith (c : Config) : RxInv (State.resetWith c) where
  cursor_le := Nat.zero_le _
  esc_lt := by simp
  buf_wf := nil_wf
  buf_inside := by simp
  written := by simp

theorem RxInv.raise {s : State} (h : RxInv s) (ev : RxEvent) : RxInv (s.raise ev) := h.congr rfl rfl rfl rfl

theorem RxInv.sessionReset {s : State} (h : RxInv s) : RxInv s.sessionReset where
  cursor_le := Nat.zero_le _
  esc_lt := by simp
  buf_wf := h.buf_wf
  buf_inside := h.buf_inside
  written := by simp

/-- With room at the cursor the flag may take either value. -/
theorem RxInv.setEsc {s : State} (h : RxInv s) (hr : s.rxCursor < s.cfg.capacity) (e : Bool) : RxInv (s.setEsc e) where
  cursor_le := h.cursor_le
  esc_lt := fun _ => hr
  buf_wf := h.buf_wf
  buf_inside := h.buf_inside
  written := h.written

/-- A write inside the buffer that keeps the cursor keeps every byte below it written. -/
theorem RxInv.write {s : State} (h : RxInv s) {i : Nat} (hi : i < s.cfg.capacity) (v : Byte) :
    RxInv { s with buf := s.buf.write i v } where
  cursor_le := h.cursor_le
  esc_lt := h.esc_lt
  buf_wf := write_wf h.buf_wf i v
  buf_inside := by
    intro c hc
    rcases mem_write hc with rfl | hc
    · exact hi
    · exact h.buf_inside c hc
  written := by
    intro k hk
    rw [read_write]
    split
    · rfl
    · exact h.written k hk

/-- A push is a write at the cursor, after which the cursor may pass the written byte (rule R25). -/
theorem RxInv.push {s : State} (h : RxInv s) (he : s.rxEsc = false) (hr : s.rxCursor < s.cfg.capacity) (v : Byte) :
    RxInv (s.push v) where
  cursor_le := hr
  esc_lt := by simp [he]
  buf_wf := (h.write hr v).buf_wf
  buf_inside := (h.write hr v).buf_inside
  written := by
    intro k hk
    rw [push_buf, read_write]
    split
    · rfl
    · exact h.written k (by rw [push_rxCursor] at hk; omega)

theorem RxInv.hostWrite {s : State} (h : RxInv s) (i : Nat) (v : Byte) : RxInv (s.hostWrite i v) := by
  rcases Nat.lt_or_ge i s.cfg.capacity with hi | hi
  · rw [hostWrite_inside hi]
    exact h.write hi v
  · rwa [hostWrite_outside hi]

/-- After the full test there is room at the cursor. -/
theorem fullTest_room {s : State} (hc : 1 ≤ s.cfg.capacity) : s.fullTest.2.rxCursor < s.fullTest.2.cfg.capacity := by
  rcases fullTest_cases s with ⟨hr, e⟩ | ⟨-, e⟩ <;> rw [e]
  · exact hr
  · exact hc

theorem RxInv.fullTest {s : State} (h : RxInv s) : RxInv s.fullTest.2 := by
  rcases fullTest_cases s with ⟨-, e⟩ | ⟨-, e⟩ <;> rw [e]
  · exact h
  · exact h.sessionReset

/-- The full test never leaves the receiver escaping unless it was. -/
theorem fullTest_rxEsc_of_normal {s : State} (he : s.rxEsc = false) : s.fullTest.2.rxEsc = false := by
  rcases fullTest_cases s with ⟨-, e⟩ | ⟨-, e⟩ <;> simp [e, he]

/-- One RXBYTE keeps the receiver's invariant, in each of the cases of rules R143 to R148. -/
theorem rxByte_keeps_rxInv {b : Byte} {s t : State} (hc : 1 ≤ s.cfg.capacity) (h : RxInv s) (hb : rxByte b s = .ok t) :
    RxInv t := by
  obtain ⟨-, -, rfl⟩ | ⟨he, -, -, rfl⟩ | ⟨-, -, hr, rfl⟩ | ⟨-, -, ev, -, rfl⟩ | ⟨-, -, -, rfl⟩ := rxByte_ok_cases hb
  · exact (h.fullTest.setEsc (fullTest_room hc) true).raise _
  · exact (h.fullTest.push (fullTest_rxEsc_of_normal he) (fullTest_room hc) b).raise _
  · exact ((h.setEsc hr false).push rfl hr escByte).raise _
  · exact h.sessionReset.raise _
  · exact h.sessionReset.raise _

/-! ## What the RX operations leave alone -/

theorem fullTest_frame (s : State) : SameTx s s.fullTest.2 ∧ SameRest s s.fullTest.2 := by
  rcases fullTest_cases s with ⟨-, e⟩ | ⟨-, e⟩ <;> simp [e, SameTx, SameRest]

theorem rxByte_frame {b : Byte} {s t : State} (h : rxByte b s = .ok t) : SameTx s t ∧ SameRest s t := by
  obtain ⟨-, -, rfl⟩ | ⟨-, -, -, rfl⟩ | ⟨-, -, -, rfl⟩ | ⟨-, -, ev, -, rfl⟩ | ⟨-, -, -, rfl⟩ := rxByte_ok_cases h
  · exact fullTest_frame s
  · exact fullTest_frame s
  all_goals simp [SameTx, SameRest]

theorem rxChunk_frame {bs : Bytes} {s t : State} (h : rxChunk bs s = .ok t) : SameTx s t ∧ SameRest s t := by
  refine rxChunk_induction (P := fun s t => SameTx s t ∧ SameRest s t) (fun s => by simp [SameTx, SameRest]) ?_ h
  intro b s u t hu ht
  have hf := rxByte_frame hu
  simp only [SameTx, SameRest] at hf ht ⊢
  simp [ht, hf]

theorem rxChunk_keeps_rxInv {bs : Bytes} {s t : State} (hc : 1 ≤ s.cfg.capacity) (h : RxInv s)
    (hb : rxChunk bs s = .ok t) : RxInv t := by
  refine rxChunk_induction (P := fun s t => 1 ≤ s.cfg.capacity → RxInv s → RxInv t) (fun s _ h => h) ?_ hb hc h
  intro b s u t hu ht hc h
  obtain ⟨-, hcfg, -, -⟩ := rxByte_frame hu
  exact ht (hcfg ▸ hc) (rxByte_keeps_rxInv hc h hu)

/-- What PARSE run on its own changes: the record of events alone. -/
theorem parse_raise_ok {s t : State} (h : (parse s).map s.raise = .ok t) : ∃ ev, t = s.raise ev := by
  cases hp : parse s with
  | error f => simp [hp, Except.map] at h
  | ok ev => exact ⟨ev, by simpa [hp, Except.map] using h.symm⟩

theorem exec_rx_frame {i : Instr} {s t : State} (hi : onTx i = false) (h : exec i s = .next t) :
    SameTx s t ∧ SameRest s t := by
  obtain ⟨bs, -, he⟩ | ⟨-, he⟩ | ⟨-, he⟩ := exec_rx_cases hi <;> rw [he] at h
  · exact rxChunk_frame (rxOutcome_next_iff.mp h)
  · cases h
    simp [SameTx, SameRest]
  · obtain ⟨ev, rfl⟩ := parse_raise_ok (rxOutcome_next_iff.mp h)
    simp [SameTx, SameRest]

theorem exec_rx_keeps_rxInv {i : Instr} {s t : State} (hi : onTx i = false) (hc : 1 ≤ s.cfg.capacity) (hs : RxInv s)
    (h : exec i s = .next t) : RxInv t := by
  obtain ⟨bs, -, he⟩ | ⟨-, he⟩ | ⟨-, he⟩ := exec_rx_cases hi <;> rw [he] at h
  · exact rxChunk_keeps_rxInv hc hs (rxOutcome_next_iff.mp h)
  · cases h
    exact hs.sessionReset.raise _
  · obtain ⟨ev, rfl⟩ := parse_raise_ok (rxOutcome_next_iff.mp h)
    exact hs.raise ev

/-! ## The invariant of the TX path -/

/-- The records of the sink agree: no burst is empty, and the wire holds nothing but bytes of the bursts, in order (rules
R56, R58). It is the invariant of an idle path. -/
def WireFromBursts (s : State) : Prop := (∀ b ∈ s.bursts, b ≠ []) ∧ s.wire.Sublist s.bursts.flatten

/-- A SENDLOG's header is 13 bytes and begins with its checksum (rules R28, R82); ESC has none. -/
def HeaderHoldsChecksum (use : TxUse) : Prop :=
  ∀ acc hdr, use = .sendlog acc hdr → hdr.length = hdrLen ∧ hdr.take csumFieldLen = hex4 acc

theorem txInv_iff_of_idle {s : State} (h : s.tx = .idle) : TxInv s ↔ WireFromBursts s := by
  simp only [TxInv, h, WireFromBursts]

theorem txInv_iff_of_waiting {s : State} {use : TxUse} {burst : Burst} {rest : Emission} (h : s.tx = .waiting use burst rest) :
    TxInv s ↔ (∀ b ∈ s.bursts, b ≠ []) ∧ s.sinkAnswers = [] ∧ (∀ b ∈ rest.bursts, b ≠ []) ∧
      (∃ before, s.bursts = before ++ [burst] ∧ s.wire.Sublist before.flatten) ∧ HeaderHoldsChecksum use := by
  simp only [TxInv, h, HeaderHoldsChecksum]

/-- The TX path's invariant speaks of the path and the sink, nothing else. -/
theorem TxInv.congr {s t : State} (h : TxInv s) (hf : SameTx s t) : TxInv t := by
  obtain ⟨htx, -, hb, hw, ha⟩ := hf
  simpa only [TxInv, htx, hb, hw, ha] using h

theorem txInv_resetWith (c : Config) : TxInv (State.resetWith c) :=
  (txInv_iff_of_idle rfl).mpr ⟨by simp, List.Sublist.slnil⟩

/-! ### Handing bursts to the sink -/

/-- The sink accepts a front part of the bursts presented; a run that waits has had every byte before its last burst
accepted, and none of that burst. -/
theorem runSink_accepted (e : Emission) (as : List SinkAnswer) :
    (runSink e as).accepted <+: (runSink e as).issued.flatten ∧
      ∀ b rest, (runSink e as).ended = .waiting b rest →
        (runSink e as).issued.flatten = (runSink e as).accepted ++ b := by
  induction as generalizing e with
  | nil =>
    cases hn : e.next with
    | none => simp [runSink_of_none hn]
    | some p => simp [runSink_no_answer hn]
  | cons a as ih =>
    cases hn : e.next with
    | none => simp [runSink_of_none hn]
    | some p =>
      by_cases ha : a.status = okStatus
      · obtain ⟨hp, hw⟩ := ih p.2
        rw [runSink_cons_ok hn ha]
        simp only [List.flatten_cons, List.append_assoc]
        exact ⟨(List.prefix_append_right_inj _).mpr hp, fun b r h => by rw [hw b r h]⟩
      · rw [runSink_cons_fail hn ha]
        simp [List.take_prefix]

/-- Handing bursts to the sink comes to a state with the invariant, whether it ends or waits. -/
theorem emit_txInv {s : State} {use : TxUse} {e : Emission} (hs : WireFromBursts s) (he : ∀ b ∈ e.bursts, b ≠ [])
    (hu : HeaderHoldsChecksum use) : TxInv (s.emit use e) := by
  obtain ⟨hne, hsub⟩ := hs
  obtain ⟨k, hk, hw⟩ := runSink_issued e s.sinkAnswers
  obtain ⟨hpre, hacc⟩ := runSink_accepted e s.sinkAnswers
  have hbursts : ∀ b ∈ s.bursts ++ (runSink e s.sinkAnswers).issued, b ≠ [] := by
    intro b hb
    rcases List.mem_append.mp hb with hb | hb
    · exact hne b hb
    · exact he b (List.mem_of_mem_take (hk ▸ hb))
  unfold State.emit
  cases hend : (runSink e s.sinkAnswers).ended with
  | done status =>
    rw [recordSink_done hend]
    refine (txInv_iff_of_idle rfl).mpr ⟨hbursts, ?_⟩
    rw [List.flatten_append]
    exact hsub.append hpre.sublist
  | waiting b rest =>
    obtain ⟨hleft, ⟨before, hb, hi⟩, -, -⟩ := hw b rest hend
    have hbefore : (runSink e s.sinkAnswers).accepted = before.flatten := by
      have := hacc b rest hend
      rw [hi] at this
      simpa using this.symm
    rw [recordSink_waiting hend]
    refine (txInv_iff_of_waiting rfl).mpr ⟨hbursts, hleft, fun c hc => he c (by simp [hb, hc]),
      ⟨s.bursts ++ before, by simp [hi], ?_⟩, hu⟩
    rw [hbefore, List.flatten_append]
    exact hsub.append (List.Sublist.refl _)

/-- The answer `OK` to a waiting operation puts its burst on the wire, and the operation hands on the rest (rule R57). -/
theorem takeSinkAnswer_ok {s : State} {use : TxUse} {burst : Burst} {rest : Emission} (h : s.tx = .waiting use burst rest)
    (ha : s.sinkAnswers = []) {a : SinkAnswer} (hok : a.status = okStatus) :
    s.takeSinkAnswer a = { s with wire := s.wire ++ burst }.emit use rest := by
  rw [takeSinkAnswer_waiting h, ha, List.nil_append, runSink_cons_ok (emission_next_ready _ _ _ _ _) hok]
  simp only [State.emit, List.tail_cons, State.recordSink, List.append_assoc]

/-- A failing answer to a waiting operation ends it with the sink's status and part of its burst on the wire (rule R205). -/
theorem takeSinkAnswer_fail {s : State} {use : TxUse} {burst : Burst} {rest : Emission} (h : s.tx = .waiting use burst rest)
    (ha : s.sinkAnswers = []) {a : SinkAnswer} (hfail : a.status ≠ okStatus) :
    s.takeSinkAnswer a = { s with
      wire := s.wire ++ burst.take a.delivered, tx := .idle,
      txAnswers := s.txAnswers ++ [{ status := a.status, result := none }] } := by
  rw [takeSinkAnswer_waiting h, ha, List.nil_append, runSink_cons_fail (emission_next_ready _ _ _ _ _) hfail,
    recordSink_done rfl]
  simp

theorem TxInv.takeSinkAnswer {s : State} (h : TxInv s) (a : SinkAnswer) : TxInv (s.takeSinkAnswer a) := by
  cases htx : s.tx with
  | idle =>
    rw [takeSinkAnswer_idle htx]
    have hs : WireFromBursts s := (txInv_iff_of_idle htx).mp h
    refine (txInv_iff_of_idle ?_).mpr hs
    exact htx
  | waiting use burst rest =>
    obtain ⟨hne, ha, hrest, ⟨before, hb, hsub⟩, hu⟩ := (txInv_iff_of_waiting htx).mp h
    have hwire : ∀ part : Bytes, part.Sublist burst → (s.wire ++ part).Sublist s.bursts.flatten := by
      intro part hp
      simpa [hb] using hsub.append hp
    by_cases hok : a.status = okStatus
    · rw [takeSinkAnswer_ok htx ha hok]
      exact emit_txInv ⟨hne, hwire burst (List.Sublist.refl _)⟩ hrest hu
    · rw [takeSinkAnswer_fail htx ha hok]
      exact (txInv_iff_of_idle rfl).mpr ⟨hne, hwire _ (List.take_sublist _ _)⟩

/-! ### Starting an operation -/

theorem headerHoldsChecksum_esc : HeaderHoldsChecksum .esc := by
  simp [HeaderHoldsChecksum]

theorem headerHoldsChecksum_logHeader (level : Level) (m : Bytes) :
    HeaderHoldsChecksum (.sendlog (logCsum level m) (logHeader level m)) := by
  rintro acc hdr ⟨⟩
  exact ⟨logHeader_length level m, by rw [logHeader, List.take_left' (hex4_length _)]⟩

theorem escBursts_ne_nil (m : Bytes) : ∀ b ∈ escBursts m, b ≠ [] := fun _ => escBurstsFrom_ne_nil

theorem logBursts_ne_nil (level : Level) (m : Bytes) : ∀ b ∈ logBursts level m, b ≠ [] := by
  intro b hb
  simp only [logBursts, List.mem_append, List.mem_singleton] at hb
  rcases hb with (hb | hb) | rfl
  · exact escBursts_ne_nil _ b hb
  · exact escBursts_ne_nil _ b hb
  · simp [hardTerminator]

/-- A TX operation goes on only from an idle path, and then it answers at once or hands bursts, none of them empty, to the
sink. -/
theorem exec_tx_next_cases {i : Instr} {s t : State} (hi : onTx i = true) (h : exec i s = .next t) :
    s.tx = .idle ∧
      ((∃ status result, t = s.answer status result) ∨
       ∃ use e, t = s.emit use e ∧ HeaderHoldsChecksum use ∧ ∀ b ∈ e.bursts, b ≠ []) := by
  cases i with
  | csum sd m =>
    obtain ⟨hidle, ht⟩ := startTx_next_iff.mp ((exec_csum sd m s).symm.trans h)
    exact ⟨hidle, .inl ⟨_, _, ht⟩⟩
  | esc m =>
    obtain ⟨hidle, ht⟩ := startTx_next_iff.mp ((exec_esc m s).symm.trans h)
    exact ⟨hidle, .inr ⟨_, _, ht, headerHoldsChecksum_esc, escEmission_bursts m ▸ escBursts_ne_nil m⟩⟩
  | sendlog level m =>
    obtain ⟨hidle, ht⟩ := startTx_next_iff.mp ((exec_sendlog level m s).symm.trans h)
    exact ⟨hidle, .inr ⟨_, _, ht, headerHoldsChecksum_logHeader level m, logBursts_ne_nil level m⟩⟩
  | sendlogRsvd m =>
    obtain ⟨hidle, ht⟩ := startTx_next_iff.mp ((exec_sendlogRsvd m s).symm.trans h)
    exact ⟨hidle, .inl ⟨_, _, ht⟩⟩
  | txRsvd m =>
    obtain ⟨hidle, ht⟩ := startTx_next_iff.mp ((exec_txRsvd m s).symm.trans h)
    exact ⟨hidle, .inl ⟨_, _, ht⟩⟩
  | lit | escesc | eof | escbad | rxbyte | rxinit | parse => simp [onTx] at hi

theorem exec_tx_keeps_txInv {i : Instr} {s t : State} (hi : onTx i = true) (hs : TxInv s) (h : exec i s = .next t) :
    TxInv t := by
  obtain ⟨hidle, ht⟩ := exec_tx_next_cases hi h
  have hrecord : WireFromBursts s := (txInv_iff_of_idle hidle).mp hs
  obtain ⟨status, result, rfl⟩ | ⟨use, e, rfl, hu, he⟩ := ht
  · exact (txInv_iff_of_idle (s := s.answer status result) hidle).mpr hrecord
  · exact emit_txInv hrecord he hu

/-- What a TX operation leaves alone of the receiver, the memory itself included, and of the rest. -/
theorem exec_tx_frame {i : Instr} {s t : State} (hi : onTx i = true) (h : exec i s = .next t) :
    t.buf = s.buf ∧ SameRx s t ∧ SameRest s t := by
  obtain ⟨-, ⟨status, result, rfl⟩ | ⟨use, e, rfl, -⟩⟩ := exec_tx_next_cases hi h
  · simp [SameRx, SameRest]
  · simp [State.emit, SameRx, SameRest]

/-! ### Changes of a range in flight -/

theorem TxInv.changeMessage {s : State} (h : TxInv s) (i : Nat) (v : Byte) : TxInv (s.changeMessage i v) := by
  cases htx : s.tx with
  | idle => rwa [changeMessage_idle htx]
  | waiting use burst rest =>
    obtain ⟨hne, ha, hrest, hbefore, hu⟩ := (txInv_iff_of_waiting htx).mp h
    rw [changeMessage_waiting htx]
    exact (txInv_iff_of_waiting rfl).mpr ⟨hne, ha, emission_change_ne_nil hrest i v, hbefore, hu⟩

/-! ### The hardware reset -/

/-- `k` whole bursts and some bytes of the next are a front part of the first `k + 1` bursts. -/
theorem cut_prefix_flatten_take (bs : List Burst) (k n : Nat) :
    (bs.take k).flatten ++ ((bs.drop k).headD []).take n <+: (bs.take (k + 1)).flatten := by
  have hnext : (bs.take (k + 1)).flatten = (bs.take k).flatten ++ (bs.drop k).headD [] := by
    rw [List.take_add_one, List.flatten_append, List.headD_eq_head?_getD, List.head?_drop]
    cases bs[k]? <;> simp
  rw [hnext, List.prefix_append_right_inj]
  exact List.take_prefix n _

theorem TxInv.cutTx {s : State} (h : TxInv s) : TxInv s.cutTx := by
  cases htx : s.tx with
  | idle => rwa [cutTx_idle htx]
  | waiting use burst rest =>
    obtain ⟨hne, -, hrest, ⟨before, hb, hsub⟩, -⟩ := (txInv_iff_of_waiting htx).mp h
    rw [cutTx_waiting htx]
    refine (txInv_iff_of_idle rfl).mpr ⟨fun b hb => ?_, ?_⟩
    · rcases List.mem_append.mp hb with hb | hb
      · exact hne b hb
      · exact hrest b (List.mem_of_mem_take hb)
    · have hcut := (cut_prefix_flatten_take (burst :: rest.bursts) (Config.cutBursts s.draws)
        (Config.cutBytes s.draws)).sublist
      simpa [hb] using hsub.append hcut

/-! ## The invariant of the block -/

theorem BlockInv.capacity_pos {s : State} (h : BlockInv s) : 1 ≤ s.cfg.capacity := h.cfg_wf.1

/-- What the environment presents is no part of the invariant. -/
theorem BlockInv.withInbox {s : State} (h : BlockInv s) (inputs : List Input) : BlockInv (s.withInbox inputs) where
  cfg_wf := h.cfg_wf
  rx := h.rx.congr rfl rfl rfl rfl
  tx := h.tx.congr ⟨rfl, rfl, rfl, rfl, rfl⟩

theorem BlockInv.takeSinkAnswer {s : State} (h : BlockInv s) (a : SinkAnswer) : BlockInv (s.takeSinkAnswer a) := by
  have hframe : (s.takeSinkAnswer a).cfg = s.cfg ∧ (s.takeSinkAnswer a).rxEsc = s.rxEsc ∧
      (s.takeSinkAnswer a).rxCursor = s.rxCursor ∧ (s.takeSinkAnswer a).buf = s.buf := by
    cases htx : s.tx with
    | idle => simp [takeSinkAnswer_idle htx]
    | waiting use burst rest => simp [takeSinkAnswer_waiting htx]
  obtain ⟨hc, he, hn, hb⟩ := hframe
  exact ⟨hc ▸ h.cfg_wf, h.rx.congr hc he hn hb, h.tx.takeSinkAnswer a⟩

theorem BlockInv.changeMessage {s : State} (h : BlockInv s) (i : Nat) (v : Byte) : BlockInv (s.changeMessage i v) where
  cfg_wf := by simpa using h.cfg_wf
  rx := h.rx.congr (by simp) (by simp) (by simp) (by simp)
  tx := h.tx.changeMessage i v

theorem BlockInv.hostWrite {s : State} (h : BlockInv s) (i : Nat) (v : Byte) : BlockInv (s.hostWrite i v) where
  cfg_wf := by simpa using h.cfg_wf
  rx := h.rx.hostWrite i v
  tx := h.tx.congr (by simp [SameTx])

theorem BlockInv.hardReset {s : State} (h : BlockInv s) : BlockInv s.hardReset where
  cfg_wf := by simpa [State.hardReset] using h.cfg_wf
  rx := (h.rx.congr (cutTx_cfg s) (cutTx_rxEsc s) (cutTx_rxCursor s) (cutTx_buf s)).sessionReset.raise _
  tx := h.tx.cutTx.congr (by simp [State.hardReset, SameTx])

/-- Every operation keeps the invariant: one path keeps its own, the other path is as it was. -/
theorem exec_keeps_blockInv {i : Instr} {s t : State} (hs : BlockInv s) (h : exec i s = .next t) : BlockInv t := by
  cases hi : onTx i with
  | false =>
    obtain ⟨htx, hcfg, -, -⟩ := exec_rx_frame hi h
    exact ⟨hcfg ▸ hs.cfg_wf, exec_rx_keeps_rxInv hi hs.capacity_pos hs.rx h, hs.tx.congr htx⟩
  | true =>
    obtain ⟨hbuf, ⟨hesc, hcur, -, -⟩, hcfg, -, -⟩ := exec_tx_frame hi h
    exact ⟨hcfg ▸ hs.cfg_wf, hs.rx.congr hcfg hesc hcur hbuf, exec_tx_keeps_txInv hi hs.tx h⟩

/-- What the block takes that is no operation keeps the invariant. -/
theorem fetch_other_keeps_blockInv {s t : State} (hs : BlockInv s) (h : fetch s = .other t) : BlockInv t := by
  obtain ⟨-, rfl⟩ | ⟨rest, -, rfl⟩ | ⟨a, rest, -, rfl⟩ | ⟨i, v, rest, -, rfl⟩ | ⟨i, v, rest, -, rfl⟩ | ⟨rest, -, rfl⟩ :=
    fetch_other_cases h
  · exact hs
  · exact hs.withInbox rest
  · exact (hs.withInbox rest).takeSinkAnswer a
  · exact (hs.withInbox rest).changeMessage i v
  · exact (hs.withInbox rest).hostWrite i v
  · exact (hs.withInbox rest).hardReset

/-- Settles O50: the reset state has the invariant of both paths. -/
theorem invariantAtReset : Obligations.InvariantAtReset :=
  fun c hc => ⟨hc, rxInv_resetWith c, txInv_resetWith c⟩

/-- Settles O51: a step runs an operation on a state that differs in its inbox alone, or takes what is no operation. -/
theorem stepKeepsTheInvariant : Obligations.StepKeepsTheInvariant := by
  intro s t hs h
  obtain ⟨i, u, hf, he⟩ | hf := step_next_cases h
  · have hu : BlockInv u := fetch_op_state hf ▸ hs.withInbox u.inbox
    exact exec_keeps_blockInv hu he
  · exact fetch_other_keeps_blockInv hs hf

end Sys2Proof.Machine
end

section
/-! PROOFS. What every operation leaves alone and what every reachable state has: the receiver's store and its cursor, the
outputs of the TX path, then the statements about the state. -/

namespace Sys2Proof.Machine

/-! ## One RXBYTE: what it stores, its event, its cursor -/

@[simp] theorem fullTest_cfg (s : State) : s.fullTest.2.cfg = s.cfg := by
  rcases fullTest_cases s with ⟨-, e⟩ | ⟨-, e⟩ <;> simp [e]

@[simp] theorem fullTest_buf (s : State) : s.fullTest.2.buf = s.buf := by
  rcases fullTest_cases s with ⟨-, e⟩ | ⟨-, e⟩ <;> simp [e]

@[simp] theorem fullTest_rxEvents (s : State) : s.fullTest.2.rxEvents = s.rxEvents := by
  rcases fullTest_cases s with ⟨-, e⟩ | ⟨-, e⟩ <;> simp [e]

/-- Where RXBYTE stores a byte it is its own, and it stores at `storeIndex` alone (rules R145, R146). -/
theorem rxByte_read {b : Byte} {s t : State} (h : rxByte b s = .ok t) (k : Nat) :
    t.buf.read k = if storeIndex b s = some k then some b else s.buf.read k := by
  obtain ⟨he, rfl, rfl⟩ | ⟨he, hb, -, rfl⟩ | ⟨he, rfl, -, rfl⟩ | ⟨he, rfl, ev, -, rfl⟩ | ⟨he, hb, -, rfl⟩ :=
    rxByte_ok_cases h
  · simp [storeIndex, he]
  · simp [storeIndex, he, hb, eq_comm]
  · simp [storeIndex, he, eq_comm]
  · simp [storeIndex, he, escByte_ne_termByte.symm]
  · simp [storeIndex, he, hb]

theorem rxByte_rxEvents {b : Byte} {s t : State} (h : rxByte b s = .ok t) : ∃ ev, t.rxEvents = s.rxEvents ++ [ev] := by
  obtain ⟨-, -, rfl⟩ | ⟨-, -, -, rfl⟩ | ⟨-, -, -, rfl⟩ | ⟨-, -, ev, -, rfl⟩ | ⟨-, -, -, rfl⟩ := rxByte_ok_cases h
  all_goals simp

/-- A chunk adds events and removes none. -/
theorem rxChunk_rxEvents {bs : Bytes} {s t : State} (h : rxChunk bs s = .ok t) : ∃ evs, t.rxEvents = s.rxEvents ++ evs := by
  refine rxChunk_induction (P := fun s t => ∃ evs, t.rxEvents = s.rxEvents ++ evs) (fun s => ⟨[], by simp⟩) ?_ h
  rintro b s u t hu ⟨evs, ht⟩
  obtain ⟨ev, hev⟩ := rxByte_rxEvents hu
  exact ⟨ev :: evs, by simp [ht, hev]⟩

/-- The bounds of rule R25 (a), (b): they speak of the flag and the cursor alone, so they need nothing of `buf`. -/
def CursorInside (s : State) : Prop :=
  s.rxCursor ≤ s.cfg.capacity ∧ (s.rxEsc = true → s.rxCursor < s.cfg.capacity)

theorem cursorInside_of_reset {s : State} (he : s.rxEsc = false) (hn : s.rxCursor = 0) : CursorInside s := by
  simp [CursorInside, he, hn]

theorem rxByte_keeps_cursorInside {b : Byte} {s t : State} (hc : 1 ≤ s.cfg.capacity) (h : rxByte b s = .ok t) :
    CursorInside t := by
  have hroom := fullTest_room hc
  obtain ⟨-, -, rfl⟩ | ⟨he, -, -, rfl⟩ | ⟨-, -, hr, rfl⟩ | ⟨-, -, ev, -, rfl⟩ | ⟨-, -, -, rfl⟩ := rxByte_ok_cases h
  · exact ⟨hroom.le, fun _ => hroom⟩
  · exact ⟨hroom, by simp [fullTest_rxEsc_of_normal he]⟩
  · exact ⟨hr, by simp⟩
  · exact cursorInside_of_reset rfl rfl
  · exact cursorInside_of_reset rfl rfl

/-- RXBYTE stores inside the buffer (rule R25 (c)). -/
theorem storeIndex_lt {b : Byte} {s : State} {k : Nat} (hc : 1 ≤ s.cfg.capacity) (hs : CursorInside s)
    (h : storeIndex b s = some k) : k < s.cfg.capacity := by
  have hroom := fullTest_room hc
  unfold storeIndex at h
  split at h <;> split at h <;> cases h
  · exact hs.2 ‹_›
  · simpa using hroom

/-- A chunk keeps the cursor inside the buffer and stores nothing outside it. -/
theorem rxChunk_keeps_cursorInside {bs : Bytes} {s t : State} (hc : 1 ≤ s.cfg.capacity) (hs : CursorInside s)
    (h : rxChunk bs s = .ok t) : CursorInside t ∧ ∀ k, s.cfg.capacity ≤ k → t.buf.read k = s.buf.read k := by
  refine rxChunk_induction (P := fun s t => 1 ≤ s.cfg.capacity → CursorInside s →
    CursorInside t ∧ ∀ k, s.cfg.capacity ≤ k → t.buf.read k = s.buf.read k) (fun s _ hs => ⟨hs, fun _ _ => rfl⟩) ?_ h hc hs
  intro b s u t hu ht hc hs
  obtain ⟨-, hcfg, -, -⟩ := rxByte_frame hu
  obtain ⟨hin, hread⟩ := ht (hcfg ▸ hc) (rxByte_keeps_cursorInside hc hu)
  refine ⟨hin, fun k hk => ?_⟩
  have hk' : storeIndex b s ≠ some k := fun e => absurd (storeIndex_lt hc hs e) (by omega)
  rw [hread k (hcfg ▸ hk), rxByte_read hu, if_neg hk']

/-! ## RX operations: their events and the stores of a two-byte token -/

/-- An RX operation adds events and removes none. -/
theorem exec_rx_rxEvents {i : Instr} {s t : State} (hi : onTx i = false) (h : exec i s = .next t) :
    ∃ evs, t.rxEvents = s.rxEvents ++ evs := by
  obtain ⟨bs, -, he⟩ | ⟨-, he⟩ | ⟨-, he⟩ := exec_rx_cases hi <;> rw [he] at h
  · exact rxChunk_rxEvents (rxOutcome_next_iff.mp h)
  · cases h
    exact ⟨_, rfl⟩
  · obtain ⟨ev, rfl⟩ := parse_raise_ok (rxOutcome_next_iff.mp h)
    exact ⟨_, rfl⟩

/-- A token of the escape byte and `b` is two RXBYTEs, and stores where they store. -/
theorem rxChunk_escaped_read {b : Byte} {s t : State} (h : rxChunk [escByte, b] s = .ok t) :
    ∃ u, exec (.rxbyte escByte) s = .next u ∧
      ∀ k, storeIndex escByte s ≠ some k → storeIndex b u ≠ some k → t.buf.read k = s.buf.read k := by
  obtain ⟨u, hu, ht⟩ := rxChunk_cons_ok_iff.mp h
  rw [rxChunk_one] at ht
  refine ⟨u, by rw [exec_rxbyte, hu, rxOutcome_ok], fun k h1 h2 => ?_⟩
  rw [rxByte_read ht, if_neg h2, rxByte_read hu, if_neg h1]

/-! ## A receiver with the invariant always goes on -/

/-- Every byte below the cursor is inside the buffer and written. -/
theorem RxInv.bufRead_ok {s : State} (h : RxInv s) {i : Nat} (hi : i < s.rxCursor) : ∃ v, s.bufRead i = .ok v := by
  obtain ⟨v, hv⟩ := Option.isSome_iff_exists.mp (h.written i hi)
  exact ⟨v, bufRead_ok_iff.mpr ⟨hi.trans_le h.cursor_le, hv⟩⟩

theorem RxInv.bufRange_ok {s : State} (h : RxInv s) {i k : Nat} (hk : i + k ≤ s.rxCursor) :
    ∃ f, s.bufRange i k = .ok f := by
  induction k generalizing i with
  | zero => exact ⟨[], rfl⟩
  | succ k ih =>
    obtain ⟨v, hv⟩ := h.bufRead_ok (i := i) (by omega)
    obtain ⟨f, hf⟩ := ih (i := i + 1) (by omega)
    exact ⟨v :: f, by simp [State.bufRange, hv, hf, bind, Except.bind]⟩

/-- PARSE reads below the cursor alone, so it answers an event (rules R160, R210). -/
theorem RxInv.parse_ok {s : State} (h : RxInv s) : ∃ ev, parse s = .ok ev := by
  by_cases hlt : s.rxCursor < minFrameLen
  · exact ⟨_, if_pos hlt⟩
  have hlen : 8 ≤ s.rxCursor := Nat.not_lt.mp hlt
  obtain ⟨c0, h0⟩ := h.bufRead_ok (i := 0) (by omega)
  obtain ⟨c1, h1⟩ := h.bufRead_ok (i := 1) (by omega)
  obtain ⟨c2, h2⟩ := h.bufRead_ok (i := 2) (by omega)
  obtain ⟨c3, h3⟩ := h.bufRead_ok (i := 3) (by omega)
  obtain ⟨ty, h5⟩ := h.bufRead_ok (i := 5) (by omega)
  obtain ⟨q6, h6⟩ := h.bufRead_ok (i := 6) (by omega)
  obtain ⟨q7, h7⟩ := h.bufRead_ok (i := 7) (by omega)
  have hfield : csumFieldLen ≤ s.rxCursor := le_trans (by decide) hlen
  obtain ⟨body, hbody⟩ := h.bufRange_ok (i := csumFieldLen) (k := s.rxCursor - csumFieldLen) (by omega)
  simp only [parse, if_neg hlt, h0, h1, h2, h3, h5, h6, h7, hbody, bind, Except.bind]
  cases unhex4 c0 c1 c2 c3 with
  | none => exact ⟨_, rfl⟩
  | some sum =>
    by_cases hsum : sum = csum csumSeed body
    · exact ⟨_, if_pos hsum⟩
    · exact ⟨_, if_neg hsum⟩

theorem RxInv.rxByte_ok {s : State} (h : RxInv s) (hc : 1 ≤ s.cfg.capacity) (b : Byte) : ∃ t, rxByte b s = .ok t := by
  cases he : s.rxEsc with
  | false =>
    rcases Nat.lt_or_ge s.rxCursor s.cfg.capacity with hr | hfull <;> by_cases hb : b = escByte
    · exact ⟨_, hb ▸ rxByte_normal_esc he hr⟩
    · exact ⟨_, rxByte_normal_lit he hr hb⟩
    · exact ⟨_, hb ▸ rxByte_full_esc he hfull⟩
    · exact ⟨_, rxByte_full_lit he hfull hc hb⟩
  | true =>
    by_cases hb : b = escByte
    · exact ⟨_, hb ▸ rxByte_escaping_esc he (h.esc_lt he)⟩
    by_cases ht : b = termByte
    · obtain ⟨ev, hev⟩ := h.parse_ok
      exact ⟨_, by rw [ht, rxByte_escaping_term he, hev]; rfl⟩
    · exact ⟨_, rxByte_escaping_bad he hb ht⟩

theorem RxInv.rxChunk_ok {s : State} (h : RxInv s) (hc : 1 ≤ s.cfg.capacity) (bs : Bytes) : ∃ t, rxChunk bs s = .ok t := by
  induction bs generalizing s with
  | nil => exact ⟨s, rfl⟩
  | cons b bs ih =>
    obtain ⟨u, hu⟩ := h.rxByte_ok hc b
    obtain ⟨-, hcfg, -, -⟩ := rxByte_frame hu
    rw [rxChunk_cons_ok hu]
    exact ih (rxByte_keeps_rxInv hc h hu) (hcfg ▸ hc)

/-! ## The outputs of the TX path -/

/-- What handing an emission to the sink adds to the outputs: an answer exactly where the operation ends. -/
theorem emit_outputs (s : State) (use : TxUse) (e : Emission) :
    ∃ issued accepted answers, (s.emit use e).bursts = s.bursts ++ issued ∧ (s.emit use e).wire = s.wire ++ accepted ∧
      (s.emit use e).txAnswers = s.txAnswers ++ answers ∧ answers.length ≤ 1 ∧ accepted.Sublist issued.flatten ∧
      (answers = [] ↔ (s.emit use e).tx ≠ .idle) := by
  have hsub := (runSink_accepted e s.sinkAnswers).1.sublist
  unfold State.emit
  cases hend : (runSink e s.sinkAnswers).ended with
  | done status =>
    rw [recordSink_done hend]
    exact ⟨_, _, _, rfl, rfl, rfl, by simp, hsub, by simp⟩
  | waiting burst rest =>
    rw [recordSink_waiting hend]
    exact ⟨_, _, [], rfl, rfl, by simp, by simp, hsub, by simp⟩

/-- Every TX operation but ESC and SENDLOG answers at once (rules R89, R112, R126). -/
theorem exec_tx_answers {i : Instr} {s t : State} (hi : onTx i = true) (hesc : ∀ m, i ≠ .esc m)
    (hlog : ∀ level m, i ≠ .sendlog level m) (h : exec i s = .next t) :
    s.tx = .idle ∧ ∃ status result, t = s.answer status result := by
  cases i with
  | csum sd m => exact (startTx_next_iff.mp ((exec_csum sd m s).symm.trans h)).imp id fun ht => ⟨_, _, ht⟩
  | sendlogRsvd m => exact (startTx_next_iff.mp ((exec_sendlogRsvd m s).symm.trans h)).imp id fun ht => ⟨_, _, ht⟩
  | txRsvd m => exact (startTx_next_iff.mp ((exec_txRsvd m s).symm.trans h)).imp id fun ht => ⟨_, _, ht⟩
  | esc m => exact absurd rfl (hesc m)
  | sendlog level m => exact absurd rfl (hlog level m)
  | lit | escesc | eof | escbad | rxbyte | rxinit | parse => simp [onTx] at hi

/-! ## The configuration -/

@[simp] theorem takeSinkAnswer_cfg (s : State) (a : SinkAnswer) : (s.takeSinkAnswer a).cfg = s.cfg := by
  cases htx : s.tx with
  | idle => rw [takeSinkAnswer_idle htx]
  | waiting use burst rest => rw [takeSinkAnswer_waiting htx, recordSink_cfg]

@[simp] theorem hardReset_cfg (s : State) : s.hardReset.cfg = s.cfg := by simp [State.hardReset]

theorem exec_cfg {i : Instr} {s t : State} (h : exec i s = .next t) : t.cfg = s.cfg := by
  cases hi : onTx i with
  | true =>
    obtain ⟨-, -, hcfg, -, -⟩ := exec_tx_frame hi h
    exact hcfg
  | false =>
    obtain ⟨-, hcfg, -, -⟩ := exec_rx_frame hi h
    exact hcfg

theorem fetch_other_cfg {s t : State} (h : fetch s = .other t) : t.cfg = s.cfg := by
  obtain ⟨-, rfl⟩ | ⟨rest, -, rfl⟩ | ⟨a, rest, -, rfl⟩ | ⟨i, v, rest, -, rfl⟩ | ⟨i, v, rest, -, rfl⟩ | ⟨rest, -, rfl⟩ :=
    fetch_other_cases h
  all_goals simp

/-! ## Writes of the host to the buffer -/

theorem step_bufWrite {s : State} {i : Nat} {v : Byte} {inputs : List Input} (h : s.inbox = .bufWrite i v :: inputs) :
    step s = .next ((s.withInbox inputs).hostWrite i v) :=
  step_eq_of_other (by simp [fetch, h])

/-- A frame held in `buf` is held with the host's byte in its place (U17). -/
theorem Holds.hostWrite {s : State} {f : Bytes} (h : Holds s f) {i : Nat} (hi : i < s.cfg.capacity) (v : Byte) :
    Holds (s.hostWrite i v) (f.set i v) := by
  obtain ⟨hcur, hcap, hread⟩ := h
  refine ⟨by simpa using hcur, by simpa using hcap, fun k hk => ?_⟩
  rw [List.length_set] at hk
  rw [hostWrite_inside hi, read_write, List.getElem_set, hread k hk]
  simp only [eq_comm (a := k)]
  split <;> rfl

/-! ## The statements -/

/-- Settles O23: a TX operation answers at once or hands bursts to the sink; the receiver and the rest are framed. -/
theorem txOperationFrame : Obligations.TxOperationFrame := by
  intro i s t hi h
  obtain ⟨-, hrx, hrest⟩ := exec_tx_frame hi h
  refine ⟨hrx, hrest, ?_, fun hesc hlog => ?_⟩
  · obtain ⟨hidle, ⟨status, result, rfl⟩ | ⟨use, e, rfl, -⟩⟩ := exec_tx_next_cases hi h
    · exact ⟨[], [], _, by simp, by simp, answer_txAnswers s status result, by simp, by simp, by simp [hidle]⟩
    · exact emit_outputs s use e
  · obtain ⟨hidle, status, result, rfl⟩ := exec_tx_answers hi hesc hlog h
    exact ⟨rfl, rfl, rfl, hidle⟩

/-- Settles O24: each path's frame. -/
theorem pathsShareNoState : Obligations.PathsShareNoState :=
  fun _ _ _ h => ⟨fun hi => (exec_tx_frame hi h).2.1, fun hi => (exec_rx_frame hi h).1⟩

/-- Settles O30: a byte operation stores as RXBYTE does, a two-byte token as its two bytes do, RXINIT and PARSE nowhere. -/
theorem rxOperationFrame : Obligations.RxOperationFrame := by
  intro i s t hi h
  obtain ⟨htx, hrest⟩ := exec_rx_frame hi h
  have hparse : i = .parse → ∃ ev, t = s.raise ev := by
    rintro rfl
    exact parse_raise_ok (rxOutcome_next_iff.mp h)
  refine ⟨htx, hrest, exec_rx_rxEvents hi h, fun b hb => ?byte, fun b hb => ?token, fun hk => ?nothing, fun hp => ?parse⟩
  case byte =>
    have hr : rxByte b s = .ok t := by
      rcases hb with rfl | rfl
      · exact rxOutcome_next_iff.mp h
      · exact rxOutcome_next_iff.mp (exec_lit b s ▸ h)
    exact ⟨fun k hk => by rw [rxByte_read hr, if_neg hk], fun k hk => by rw [rxByte_read hr, if_pos hk]⟩
  case token =>
    rcases hb with ⟨rfl, rfl⟩ | ⟨rfl, rfl⟩ | rfl
    all_goals exact rxChunk_escaped_read (rxOutcome_next_iff.mp h)
  case nothing =>
    rcases hk with rfl | hp
    · cases h
      exact fun _ => rfl
    · obtain ⟨ev, rfl⟩ := hparse hp
      exact fun _ => rfl
  case parse =>
    obtain ⟨ev, rfl⟩ := hparse hp
    exact ⟨rfl, rfl⟩

/-- Settles O31: the bounds hold at reset, and every RX operation feeds bytes, resets the session or writes an event. -/
theorem rxStateInvariants : Obligations.RxStateInvariants := by
  refine ⟨fun c _ => cursorInside_of_reset (s := State.resetWith c) rfl rfl, fun i s t hi hc hle hlt h => ?_⟩
  have hs : CursorInside s := ⟨hle, hlt⟩
  rw [← and_assoc]
  obtain ⟨bs, -, he⟩ | ⟨-, he⟩ | ⟨-, he⟩ := exec_rx_cases hi <;> rw [he] at h
  · exact rxChunk_keeps_cursorInside hc hs (rxOutcome_next_iff.mp h)
  · cases h
    exact ⟨cursorInside_of_reset rfl rfl, fun _ _ => rfl⟩
  · obtain ⟨ev, rfl⟩ := parse_raise_ok (rxOutcome_next_iff.mp h)
    exact ⟨hs, fun _ _ => rfl⟩

/-- Settles O48: an operation keeps the configuration, and so does what is no operation. -/
theorem configurationNeverChanges : Obligations.ConfigurationNeverChanges := by
  intro s t h
  obtain ⟨i, u, hf, he⟩ | hf := step_next_cases h
  · rw [exec_cfg he, fetch_op_state hf, withInbox_cfg]
  · exact fetch_other_cfg hf

/-- Settles O49: on the RX path every byte and PARSE go on from a state with the invariant; an idle TX path takes any command. -/
theorem everyOperationCompletes : Obligations.EveryOperationCompletes := by
  refine ⟨fun i s hi hc hs => ?_, fun i s hi hidle => ?_⟩
  · obtain ⟨bs, -, he⟩ | ⟨-, he⟩ | ⟨-, he⟩ := exec_rx_cases hi <;> rw [he]
    · obtain ⟨t, ht⟩ := hs.rxChunk_ok hc bs
      exact ⟨t, by rw [ht, rxOutcome_ok]⟩
    · exact ⟨_, rfl⟩
    · obtain ⟨ev, hev⟩ := hs.parse_ok
      exact ⟨s.raise ev, by rw [hev]; rfl⟩
  · obtain ⟨status, result, he⟩ | ⟨use, e, he⟩ := exec_tx_cases hi
    · exact ⟨_, (he s).trans (startTx_idle hidle _)⟩
    · exact ⟨_, (he s).trans (startTx_idle hidle _)⟩

/-- Settles O53: reset has the invariant, presenting an input leaves it alone, and every step keeps it. -/
theorem reachableStatesKeepTheInvariant : Obligations.ReachableStatesKeepTheInvariant := by
  intro c s hc h
  induction h with
  | reset => exact ⟨invariantAtReset c hc, rfl⟩
  | presented s input _ ih =>
    obtain ⟨hinv, hcfg⟩ := ih
    exact ⟨hinv.withInbox _, hcfg⟩
  | stepped s t _ hst ih =>
    obtain ⟨hinv, hcfg⟩ := ih
    exact ⟨stepKeepsTheInvariant s t hinv hst, (configurationNeverChanges s t hst).trans hcfg⟩

/-- Settles O45: the fields of the reset state. -/
theorem resetLeavesTheInitialState : Obligations.ResetLeavesTheInitialState :=
  fun c => ⟨resetWith_rxEsc c, resetWith_rxCursor c, read_nil, resetWith_tx c, rfl, resetWith_txAnswers c,
    resetWith_bursts c, resetWith_wire c⟩

/-- Settles O56: the step is the host's write, which outside the buffer is none. -/
theorem bufferWriteIsNotDetected : Obligations.BufferWriteIsNotDetected := by
  intro s i v inputs hin
  have hstep := step_bufWrite hin
  refine ⟨fun (hout : (s.withInbox inputs).cfg.capacity ≤ i) => ?outside,
    fun (hi : i < (s.withInbox inputs).cfg.capacity) => ⟨_, hstep, ?_⟩⟩
  case outside => rw [hstep, hostWrite_outside hout, State.withInbox]
  have hheld : ∀ f, Holds s f → Holds ((s.withInbox inputs).hostWrite i v) (f.set i v) :=
    fun f (hf : Holds (s.withInbox inputs) f) => hf.hostWrite hi v
  rw [hostWrite_inside hi] at hheld ⊢
  exact ⟨rfl, by simp, fun k hk => by simp [hk], hheld⟩

end Sys2Proof.Machine
end

section
/-! PROOFS. The two paths beside each other: an RX operation works on the receiver alone, a TX operation on everything else. -/

namespace Sys2Proof.Machine

/-! ## The receiver and everything else -/

/-- The receiver of `r` (its configuration with it) in a block whose other parts are those of `s`. -/
def State.withRestOf (r s : State) : State :=
  { r with
    tx := s.tx, sinkAnswers := s.sinkAnswers, bursts := s.bursts, wire := s.wire, txAnswers := s.txAnswers,
    inbox := s.inbox, draws := s.draws }

@[simp] theorem withRestOf_self (s : State) : s.withRestOf s = s := rfl

theorem withInbox_eq_withRestOf (s : State) (inputs : List Input) :
    s.withInbox inputs = s.withRestOf (s.withInbox inputs) := rfl

/-! ### RX operations leave everything else alone and do not look at it -/

theorem fullTest_withRestOf (r s : State) : (r.withRestOf s).fullTest = (r.fullTest.1, r.fullTest.2.withRestOf s) := by
  rcases fullTest_cases r with ⟨hr, e⟩ | ⟨hr, e⟩
  · rw [e]
    exact fullTest_of_lt hr
  · rw [e]
    exact fullTest_of_le hr

theorem append_withRestOf (r s : State) (v : Byte) : (r.withRestOf s).append v = (r.append v).map (·.withRestOf s) := by
  rcases Nat.lt_or_ge r.rxCursor r.cfg.capacity with hr | hr
  · rw [append_of_lt hr]
    exact append_of_lt (s := r.withRestOf s) hr v
  · simp [State.append, State.withRestOf, Nat.not_lt.mpr hr, Except.map]

theorem parse_withRestOf (r s : State) : parse (r.withRestOf s) = parse r := parse_congr rfl rfl rfl

theorem rxByte_withRestOf (b : Byte) (r s : State) : rxByte b (r.withRestOf s) = (rxByte b r).map (·.withRestOf s) := by
  have hesc : (r.withRestOf s).rxEsc = r.rxEsc := rfl
  unfold rxByte
  rw [hesc]
  split
  case isFalse =>
    unfold rxNormal
    rw [fullTest_withRestOf]
    split
    · rfl
    · rw [append_withRestOf]
      cases r.fullTest.2.append b <;> rfl
  case isTrue =>
    unfold rxEscaping
    split
    · have happ : ((r.withRestOf s).setEsc false).append escByte = _ := append_withRestOf (r.setEsc false) s escByte
      rw [happ]
      cases (r.setEsc false).append escByte <;> rfl
    · split
      · rw [parse_withRestOf]
        cases parse r <;> rfl
      · rfl

theorem rxChunk_withRestOf (bs : Bytes) (r s : State) :
    rxChunk bs (r.withRestOf s) = (rxChunk bs r).map (·.withRestOf s) := by
  induction bs generalizing r with
  | nil => rfl
  | cons b bs ih =>
    rw [rxChunk_cons, rxChunk_cons, rxByte_withRestOf]
    cases rxByte b r with
    | error f => rfl
    | ok u => exact ih u

/-- What an RX operation does to a receiver it does to it in any block. -/
theorem exec_rx_withRestOf {j : Instr} {r u : State} (hj : onTx j = false) (h : exec j r = .next u) (s : State) :
    exec j (r.withRestOf s) = .next (u.withRestOf s) := by
  obtain ⟨bs, -, he⟩ | ⟨-, he⟩ | ⟨-, he⟩ := exec_rx_cases hj <;> rw [he] at h ⊢
  · rw [rxChunk_withRestOf, rxOutcome_next_iff.mp h]
    rfl
  · cases h
    rfl
  · rw [parse_withRestOf]
    cases hp : parse r with
    | error f => simp [hp, Except.map] at h
    | ok ev =>
      rw [hp] at h
      cases h
      rfl

/-- An RX operation changes the receiver alone. -/
theorem exec_rx_eq_withRestOf {j : Instr} {s u : State} (hj : onTx j = false) (h : exec j s = .next u) :
    u = u.withRestOf s := by
  have hs := exec_rx_withRestOf hj h s
  rw [withRestOf_self, h] at hs
  exact Host.Outcome.next.inj hs

/-! ### TX operations and sink answers leave the receiver alone and do not look at it -/

theorem recordSink_withRestOf (r s : State) (use : TxUse) (run : SinkRun) :
    (r.withRestOf s).recordSink use run = r.withRestOf (s.recordSink use run) := by
  cases hend : run.ended with
  | done status => rw [recordSink_done hend, recordSink_done hend]; rfl
  | waiting b rest => rw [recordSink_waiting hend, recordSink_waiting hend]; rfl

theorem takeSinkAnswer_withRestOf (r s : State) (a : SinkAnswer) :
    (r.withRestOf s).takeSinkAnswer a = r.withRestOf (s.takeSinkAnswer a) := by
  cases htx : s.tx with
  | idle =>
    rw [takeSinkAnswer_idle htx]
    exact takeSinkAnswer_idle (s := r.withRestOf s) htx a
  | waiting use b rest =>
    rw [takeSinkAnswer_waiting htx, ← recordSink_withRestOf]
    exact takeSinkAnswer_waiting (s := r.withRestOf s) htx a

/-- A TX operation does the same beside any receiver of the same configuration. -/
theorem exec_tx_withRestOf {i : Instr} {r s t : State} (hi : onTx i = true) (hcfg : r.cfg = s.cfg)
    (h : exec i s = .next t) : exec i (r.withRestOf s) = .next (r.withRestOf t) := by
  obtain ⟨status, result, he⟩ | ⟨use, e, he⟩ := exec_tx_cases hi <;> rw [he] at h ⊢
  · obtain ⟨hidle, rfl⟩ := startTx_next_iff.mp h
    exact startTx_next_iff.mpr ⟨hidle, by rw [← hcfg]; rfl⟩
  · obtain ⟨hidle, rfl⟩ := startTx_next_iff.mp h
    exact startTx_next_iff.mpr ⟨hidle, (recordSink_withRestOf r s use _).symm⟩

/-- A TX operation changes nothing of the receiver. -/
theorem exec_tx_eq_withRestOf {i : Instr} {s t : State} (hi : onTx i = true) (h : exec i s = .next t) :
    t = s.withRestOf t := by
  have hs := exec_tx_withRestOf hi (rfl : s.cfg = s.cfg) h
  rw [withRestOf_self, h] at hs
  exact Host.Outcome.next.inj hs

/-- Settles O25: the RX operation changes the receiver alone, the TX operation or the answer everything else alone. -/
theorem pathsInterleaveFreely : Obligations.PathsInterleaveFreely := by
  refine ⟨fun i j s t u hi hj hit hju => ⟨u.withRestOf t, ?rxAfterTx, ?txAfterRx⟩, fun j s u a hj hju => ?rxAfterAnswer⟩
  case rxAfterTx =>
    rw [exec_tx_eq_withRestOf hi hit]
    exact exec_rx_withRestOf hj hju t
  case txAfterRx =>
    conv => lhs; rw [exec_rx_eq_withRestOf hj hju]
    exact exec_tx_withRestOf hi (exec_cfg hju) hit
  case rxAfterAnswer =>
    calc exec j (s.takeSinkAnswer a)
        = exec j (s.withRestOf (s.takeSinkAnswer a)) := by rw [← takeSinkAnswer_withRestOf, withRestOf_self]
      _ = .next (u.withRestOf (s.takeSinkAnswer a)) := exec_rx_withRestOf hj hju _
      _ = .next (u.takeSinkAnswer a) := by rw [← takeSinkAnswer_withRestOf, ← exec_rx_eq_withRestOf hj hju]

end Sys2Proof.Machine
end

section
/-! PROOFS. Chunks served from the inbox: each step feeds the receiver the bytes of one operation. -/

namespace Sys2Proof.Machine

/-- An RX operation's end as the start of `k` steps more; a fault has none. -/
def runAfter (k : Nat) : Except Fault State → Host.Outcome State Fault Refusal
  | .ok s => Host.Core.run core k s
  | .error f => .fault f

@[simp] theorem runAfter_zero (r : Except Fault State) : runAfter 0 r = rxOutcome r := by cases r <;> rfl

theorem exec_escapedToken (x : Byte) (s : State) : exec (escapedToken x) s = rxOutcome (rxChunk [escByte, x] s) := by
  unfold escapedToken
  split
  · subst_vars
    exact exec_escesc s
  · split
    · subst_vars
      exact exec_eof s
    · exact exec_escbad x s

/-- The operation of a cut feeds the bytes taken from the front of the stream, at least one, and the others are left. -/
def FeedsFrontOf (stream : Bytes) (cut : Instr × Bytes) : Prop :=
  ∃ fed, fed ≠ [] ∧ fed ++ cut.2 = stream ∧ ∀ s, exec cut.1 s = rxOutcome (rxChunk fed s)

/-- The next operation is RXBYTE of the next byte, or the token at the front, which is its bytes (rules R77, R155). -/
theorem cutStream_feeds (rxEsc : Bool) (b : Byte) (bs : Bytes) : FeedsFrontOf (b :: bs) (cutStream rxEsc b bs) := by
  have hbyte : FeedsFrontOf (b :: bs) (.rxbyte b, bs) :=
    ⟨[b], List.cons_ne_nil _ _, rfl, fun s => by rw [rxChunk_one]; rfl⟩
  cases rxEsc with
  | true => exact hbyte
  | false =>
    by_cases hb : b = escByte
    · subst hb
      cases bs with
      | nil => simpa [cutStream] using hbyte
      | cons x bs =>
        have hcut : cutStream false escByte (x :: bs) = (escapedToken x, bs) := by simp [cutStream]
        exact hcut ▸ ⟨[escByte, x], List.cons_ne_nil _ _, rfl, exec_escapedToken x⟩
    · have hcut : cutStream false b bs = (.lit b, bs) := by simp [cutStream, hb]
      exact hcut ▸ ⟨[b], List.cons_ne_nil _ _, rfl, fun _ => rfl⟩

/-- After some number of steps from `s` the block is where feeding the receiver ended in `r`, and it goes on from there. -/
def ComesTo (s : State) (r : Except Fault State) : Prop := ∃ k, ∀ j, Host.Core.run core (k + j) s = runAfter j r

theorem ComesTo.run {s : State} {r : Except Fault State} (h : ComesTo s r) :
    ∃ k, Host.Core.run core k s = rxOutcome r := by
  obtain ⟨k, hk⟩ := h
  exact ⟨k, by rw [← runAfter_zero, ← hk 0, Nat.add_zero]⟩

theorem comesTo_of_step_rx {s : State} {r : Except Fault State} (h : step s = rxOutcome r) : ComesTo s r := by
  refine ⟨1, fun j => ?_⟩
  rw [Nat.add_comm]
  cases r with
  | error f => exact run_of_fault (M := core) j h
  | ok t => exact run_of_next (M := core) j h

theorem rxChunk_withInbox (bs : Bytes) (s : State) (inputs : List Input) :
    rxChunk bs (s.withInbox inputs) = (rxChunk bs s).map (·.withInbox inputs) := by
  have hs := rxChunk_withRestOf bs s s
  rw [withInbox_eq_withRestOf, rxChunk_withRestOf]
  cases hr : rxChunk bs s with
  | error f => rfl
  | ok u =>
    rw [withRestOf_self, hr] at hs
    rw [Except.ok.inj hs]
    rfl

/-- Bytes fed with the inbox `between` left, then more bytes from there: together they are fed one after the other. -/
theorem ComesTo.append {s s' : State} {a b : Bytes} {between rest : List Input}
    (ha : ComesTo s' (rxChunk a (s.withInbox between)))
    (hb : ∀ u : State, ComesTo (u.withInbox between) (rxChunk b (u.withInbox rest))) :
    ComesTo s' (rxChunk (a ++ b) (s.withInbox rest)) := by
  obtain ⟨k, hk⟩ := ha
  rw [rxChunk_withInbox] at hk
  rw [rxChunk_append, rxChunk_withInbox]
  cases hr : rxChunk a s with
  | error f =>
    rw [hr] at hk
    exact ⟨k, hk⟩
  | ok u =>
    obtain ⟨l, hl⟩ := hb u
    refine ⟨k + l, fun j => ?_⟩
    rw [hr] at hk
    rw [Nat.add_assoc, hk]
    exact hl j

/-- Serving what is left of a chunk feeds its bytes, one token or one byte a step. -/
theorem comesTo_pushChunk (bs : Bytes) (s : State) (rest : List Input) :
    ComesTo (s.withInbox (pushChunk bs rest)) (rxChunk bs (s.withInbox rest)) := by
  induction hn : bs.length using Nat.strong_induction_on generalizing bs s with
  | _ n ih =>
    cases bs with
    | nil => exact ⟨0, fun j => by rw [Nat.zero_add]; rfl⟩
    | cons b bs =>
      obtain ⟨fed, hne, hfed, hexec⟩ := cutStream_feeds s.rxEsc b bs
      rw [← hfed]
      refine ComesTo.append (comesTo_of_step_rx ?_) fun u => ih _ ?_ _ u rfl
      · rw [hfed]
        exact (step_eq_of_op rfl).trans (hexec _)
      · rw [← hn, ← hfed, List.length_append]
        exact Nat.lt_add_of_pos_left (List.length_pos_of_ne_nil hne)

/-- Serving a chunk feeds its bytes; an empty chunk feeds none (rule R92). -/
theorem comesTo_chunk (bs : Bytes) (s : State) (rest : List Input) :
    ComesTo (s.withInbox (.chunk bs :: rest)) (rxChunk bs (s.withInbox rest)) := by
  cases bs with
  | nil => exact comesTo_of_step_rx rfl
  | cons b bs => exact comesTo_pushChunk (b :: bs) s rest

/-- Settles O38: two chunks feed their bytes one after the other, as their concatenation does. -/
theorem chunkingIsInvisible : Obligations.ChunkingIsInvisible := by
  intro s a b rest
  obtain ⟨k, hk⟩ := (ComesTo.append (comesTo_chunk a s (.chunk b :: rest)) fun u => comesTo_chunk b u rest).run
  obtain ⟨l, hl⟩ := (comesTo_chunk (a ++ b) s rest).run
  exact ⟨k, l, hk, hl⟩

end Sys2Proof.Machine
end

section
/-! PROOFS. The TX path against the sink and the host: answers that come late or not yet, writes to a range in flight. -/

namespace Sys2Proof.Machine

/-! ## Answers of the sink, late or not there yet -/

/-- Answers that come later: a run that ended leaves them, a run that waits takes them up with the burst it waits for,
which was presented before. -/
theorem runSink_append (e : Emission) (as bs : List SinkAnswer) :
    (∀ status, (runSink e as).ended = .done status →
      runSink e (as ++ bs) = { runSink e as with left := (runSink e as).left ++ bs }) ∧
    ∀ b rest, (runSink e as).ended = .waiting b rest →
      runSink e (as ++ bs) =
        { issued := (runSink e as).issued ++ (runSink { rest with ready := b :: rest.ready } bs).issued.tail,
          accepted := (runSink e as).accepted ++ (runSink { rest with ready := b :: rest.ready } bs).accepted,
          left := (runSink { rest with ready := b :: rest.ready } bs).left,
          ended := (runSink { rest with ready := b :: rest.ready } bs).ended } := by
  induction as generalizing e with
  | nil =>
    cases hn : e.next with
    | none => simp [runSink_of_none hn]
    | some p =>
      obtain ⟨c, e'⟩ := p
      rw [runSink_no_answer hn]
      refine ⟨by simp, fun b rest h => ?_⟩
      cases h
      cases bs with
      | nil => simp [runSink_no_answer hn, runSink_no_answer (emission_next_ready _ _ _ _ _)]
      | cons a bs =>
        by_cases ha : a.status = okStatus
        · simp [runSink_cons_ok hn ha, runSink_cons_ok (emission_next_ready _ _ _ _ _) ha]
        · simp [runSink_cons_fail hn ha, runSink_cons_fail (emission_next_ready _ _ _ _ _) ha]
  | cons a as ih =>
    cases hn : e.next with
    | none => simp [runSink_of_none hn]
    | some p =>
      obtain ⟨c, e'⟩ := p
      rw [List.cons_append]
      by_cases ha : a.status = okStatus
      · obtain ⟨hdone, hwait⟩ := ih e'
        rw [runSink_cons_ok hn ha, runSink_cons_ok hn ha]
        exact ⟨fun status h => by rw [hdone status h], fun b rest h => by rw [hwait b rest h]; simp⟩
      · rw [runSink_cons_fail hn ha, runSink_cons_fail hn ha]
        exact ⟨by simp, by simp⟩

/-- Handing an emission to the sink with one more answer there is handing it over and taking that answer afterwards. -/
theorem emit_late_answer (s : State) (use : TxUse) (e : Emission) (a : SinkAnswer) :
    { s with sinkAnswers := s.sinkAnswers ++ [a] }.emit use e = (s.emit use e).takeSinkAnswer a := by
  obtain ⟨hdone, hwait⟩ := runSink_append e s.sinkAnswers [a]
  unfold State.emit
  cases hend : (runSink e s.sinkAnswers).ended with
  | done status =>
    rw [recordSink_done hend, takeSinkAnswer_idle rfl, hdone status hend]
    exact recordSink_done hend
  | waiting b rest =>
    obtain ⟨-, -, hissued⟩ := runSink_issued e s.sinkAnswers
    obtain ⟨hleft, -⟩ := hissued b rest hend
    rw [recordSink_waiting hend, takeSinkAnswer_waiting rfl, hwait b rest hend]
    simp only [hleft, List.nil_append]
    cases (runSink { rest with ready := b :: rest.ready } [a]).ended <;> simp [State.recordSink]

/-- Settles O19: an answer at once asks the sink nothing, and an emission takes the answer up where it waits. -/
theorem lateSinkAnswersCountAlike : Obligations.LateSinkAnswersCountAlike := by
  intro s i t a hi h
  obtain ⟨status, result, he⟩ | ⟨use, e, he⟩ := exec_tx_cases hi <;> rw [he] at h ⊢
  · obtain ⟨hidle, rfl⟩ := startTx_next_iff.mp h
    exact startTx_next_iff.mpr ⟨hidle, takeSinkAnswer_idle (s := s.answer _ _) hidle a⟩
  · obtain ⟨hidle, rfl⟩ := startTx_next_iff.mp h
    exact startTx_next_iff.mpr ⟨hidle, (emit_late_answer s use e a).symm⟩

/-- Answers that are all `OK` and fewer than the bursts: the run waits with the burst after the accepted ones presented. -/
theorem runSink_allOk {e : Emission} {as : List SinkAnswer} {burst : Burst} (hok : AllOk as)
    (hb : e.bursts[as.length]? = some burst) :
    ∃ rest : Emission, rest.bursts = e.bursts.drop (as.length + 1) ∧
      runSink e as =
        { issued := e.bursts.take (as.length + 1), accepted := (e.bursts.take as.length).flatten, left := [],
          ended := .waiting burst rest } := by
  induction as generalizing e with
  | nil =>
    cases hbs : e.bursts with
    | nil => simp [hbs] at hb
    | cons c cs =>
      obtain ⟨rest, hn, hrest⟩ := emission_next_of_bursts hbs
      obtain rfl : c = burst := by simpa [hbs] using hb
      exact ⟨rest, by simp [hrest], by simp [runSink_no_answer hn]⟩
  | cons a as ih =>
    cases hbs : e.bursts with
    | nil => simp [hbs] at hb
    | cons c cs =>
      obtain ⟨e', hn, rfl⟩ := emission_next_of_bursts hbs
      obtain ⟨ha, has⟩ := List.forall_mem_cons.mp hok
      obtain ⟨rest, hrest, hrun⟩ := ih has (by simpa [hbs] using hb)
      exact ⟨rest, by simp [hrest], by simp [runSink_cons_ok hn ha, hrun]⟩

/-- Handing over an emission whose answers run out: what it has done and what it has still to do. -/
theorem emit_allOk {s : State} {use : TxUse} {e : Emission} {burst : Burst} (hok : AllOk s.sinkAnswers)
    (hb : e.bursts[s.sinkAnswers.length]? = some burst) :
    ∃ rest : Emission, rest.bursts = e.bursts.drop (s.sinkAnswers.length + 1) ∧ e.read ≤ rest.read ∧
      rest.unread = e.unread.drop (rest.read - e.read) ∧
      s.emit use e = { s with
        bursts := s.bursts ++ e.bursts.take (s.sinkAnswers.length + 1),
        wire := s.wire ++ (e.bursts.take s.sinkAnswers.length).flatten,
        sinkAnswers := [], tx := .waiting use burst rest } := by
  obtain ⟨rest, hrest, hrun⟩ := runSink_allOk hok hb
  obtain ⟨-, -, hwait⟩ := runSink_issued e s.sinkAnswers
  obtain ⟨-, -, hread, hunread⟩ := hwait burst rest (by rw [hrun])
  refine ⟨rest, hrest, hread, hunread, ?_⟩
  rw [State.emit, hrun, recordSink_waiting rfl]

/-- Settles O18: ESC and SENDLOG hand over an emission that has read nothing of the range yet. -/
theorem operationWaitsForTheSink : Obligations.OperationWaitsForTheSink := by
  intro s i m bs use burst hi hidle hok hb
  obtain ⟨e, hexec, hbs, hread, hunread⟩ : ∃ e : Emission, exec i s = .next (s.emit use e) ∧ e.bursts = bs ∧
      e.read = 0 ∧ e.unread = m := by
    obtain ⟨rfl, rfl, rfl⟩ | ⟨level, rfl, rfl, rfl⟩ := hi
    · exact ⟨escEmission m, (exec_esc m s).trans (startTx_idle hidle _), escEmission_bursts m, rfl, rfl⟩
    · exact ⟨logEmission level m, (exec_sendlog level m s).trans (startTx_idle hidle _), logEmission_bursts level m, rfl, rfl⟩
  subst hbs hunread
  obtain ⟨rest, hrest, -, hdrop, hemit⟩ := emit_allOk (use := use) hok hb
  exact ⟨rest, hrest, by rw [hdrop, hread, Nat.sub_zero], by rw [hexec, hemit]⟩

/-! ## Writes of the host to a range in flight -/

theorem step_msgWrite {s : State} {i : Nat} {v : Byte} {inputs : List Input} (h : s.inbox = .msgWrite i v :: inputs) :
    step s = .next ((s.withInbox inputs).changeMessage i v) :=
  step_eq_of_other (by simp [fetch, h])

theorem step_msgWrite_waiting {s : State} {i : Nat} {v : Byte} {inputs : List Input} {use : TxUse} {burst : Burst}
    {rest : Emission} (h : s.inbox = .msgWrite i v :: inputs) (hwait : s.tx = .waiting use burst rest) :
    step s = .next { s with inbox := inputs, tx := .waiting use burst (rest.change i v) } := by
  rw [step_msgWrite h, changeMessage_waiting (s := s.withInbox inputs) hwait]
  rfl

/-- The bytes not read yet after a change: the named one is the new one. -/
theorem emission_change_unread_getElem? (e : Emission) (i : Nat) (v : Byte) {k : Nat} (hk : k < e.unread.length) :
    (e.change i v).unread[k]? = if e.read + k = i then some v else e.unread[k]? := by
  by_cases hi : i < e.read
  · rw [emission_change_read_byte hi, if_neg (by omega)]
  · have hunread : (e.change i v).unread = e.unread.set (i - e.read) v := by simp [Emission.change, hi]
    rw [hunread, List.getElem?_set]
    by_cases hki : e.read + k = i
    · rw [if_pos (by omega), if_pos (by omega), if_pos hki]
    · rw [if_neg (by omega), if_neg hki]

/-- Settles O55: the step is the change of the emission that waits. -/
theorem messageWriteReachesUnreadBytes : Obligations.MessageWriteReachesUnreadBytes := by
  intro s i v inputs hin
  refine ⟨fun hidle => ?idle, fun use burst rest hwait => ⟨rest.change i v, step_msgWrite_waiting hin hwait, ?unread⟩⟩
  case idle =>
    rw [step_msgWrite hin, changeMessage_idle (s := s.withInbox inputs) hidle]
    rfl
  case unread =>
    exact ⟨emission_change_ready rest i v, emission_change_read rest i v, emission_change_closing rest i v,
      emission_change_unread_length rest i v, fun k hk => emission_change_unread_getElem? rest i v hk⟩

end Sys2Proof.Machine
end

section
/-! PROOFS. A frame on its way: the header and its checksum, a receiver that takes it, and a message changed between the two
passes of SENDLOG. -/

namespace Sys2Proof.Machine

/-! ## Bytes without the escape byte, checksums, hex fields -/

theorem escape_append (a b : Bytes) : escape (a ++ b) = escape a ++ escape b := by
  induction a with
  | nil => rfl
  | cons c a ih => rw [List.cons_append, escape_singleton_append, ih, escape_singleton_append c a, List.append_assoc]

theorem escBurstsFrom_of_not_mem {m : Bytes} (h : escByte ∉ m) (run : Bytes) :
    escBurstsFrom run m = flushRun (run ++ m) := by
  induction m generalizing run with
  | nil => simp
  | cons b t ih =>
    obtain ⟨hb, ht⟩ : escByte ≠ b ∧ escByte ∉ t := by simpa using h
    rw [escBurstsFrom_ne (Ne.symm hb), ih ht, List.append_assoc, List.singleton_append]

theorem escape_of_not_mem {m : Bytes} (h : escByte ∉ m) : escape m = m := by
  rw [← List.nil_append (escape m), ← escBurstsFrom_flatten, escBurstsFrom_of_not_mem h, flushRun_flatten, List.nil_append]

theorem escBursts_flatten (m : Bytes) : (escBursts m).flatten = escape m := escBurstsFrom_flatten [] m

theorem hexDigit_ne_escByte : ∀ n : BitVec 4, hexDigit n ≠ escByte := by decide

theorem escByte_not_mem_logHeader (level : Level) (m : Bytes) : escByte ∉ logHeader level m := by
  have htail : escByte ∉ logHeaderTail level := by cases level <;> decide
  have hhex : escByte ∉ hex4 (logCsum level m) := by
    simp [hex4, (hexDigit_ne_escByte _).symm]
  simp [logHeader, htail, hhex]

theorem logHeader_ne_nil (level : Level) (m : Bytes) : logHeader level m ≠ [] :=
  List.ne_nil_of_length_pos (by rw [logHeader_length]; decide)

/-- The header goes out as one burst, as it is (rule R124). -/
theorem escBursts_logHeader (level : Level) (m : Bytes) : escBursts (logHeader level m) = [logHeader level m] := by
  rw [escBursts, escBurstsFrom_of_not_mem (escByte_not_mem_logHeader level m), List.nil_append, flushRun,
    if_neg (logHeader_ne_nil level m)]

theorem csum_append (sd : Half) (a b : Bytes) : csum sd (a ++ b) = csum (csum sd a) b := List.foldl_append

theorem csum_eq_add (sd : Half) (m : Bytes) : csum sd m = sd + csum 0#16 m := by
  induction m generalizing sd with
  | nil => simp
  | cons b t ih => rw [csum_cons, csum_cons, ih, ih (0#16 + b.setWidth 16), BitVec.zero_add, BitVec.add_assoc]

/-- Whether two byte sequences have the same checksum does not depend on the seed. -/
theorem csum_eq_csum_iff (sd sd' : Half) (a b : Bytes) : csum sd a = csum sd b ↔ csum sd' a = csum sd' b := by
  rw [csum_eq_add sd a, csum_eq_add sd b, csum_eq_add sd' a, csum_eq_add sd' b, BitVec.add_right_inj, BitVec.add_right_inj]

/-- A 16-bit value is its four nibbles, shifted and combined (rule R83). -/
theorem nibbles_or (v : Half) :
    (v.extractLsb' 12 4).setWidth 16 <<< 12 ||| (v.extractLsb' 8 4).setWidth 16 <<< 8 |||
      (v.extractLsb' 4 4).setWidth 16 <<< 4 ||| (v.extractLsb' 0 4).setWidth 16 = v := by
  ext i hi
  interval_cases i <;> simp [BitVec.getLsbD_eq_getElem]

/-- The checksum field reads back as the checksum written there (rules R82, R83). -/
theorem unhex4_hexDigits (v : Half) :
    unhex4 (hexDigit (v.extractLsb' 12 4)) (hexDigit (v.extractLsb' 8 4)) (hexDigit (v.extractLsb' 4 4))
      (hexDigit (v.extractLsb' 0 4)) = some v := by
  simp only [unhex4, hexVal_hexDigit, nibbles_or]

/-! ## A receiver that takes a frame -/

/-- What a receiver holds is in its configuration, its cursor and its buffer. -/
theorem Holds.congr {s t : State} {f : Bytes} (h : Holds s f) (hc : t.cfg = s.cfg) (hn : t.rxCursor = s.rxCursor)
    (hb : t.buf = s.buf) : Holds t f := by
  simpa only [Holds, hc, hn, hb] using h

theorem Holds.push {s : State} {f : Bytes} (h : Holds s f) (hr : f.length < s.cfg.capacity) (v : Byte) :
    Holds (s.push v) (f ++ [v]) := by
  obtain ⟨hcur, -, hread⟩ := h
  refine ⟨by simp [hcur], by simpa using hr, fun k hk => ?_⟩
  rw [push_buf, read_write, hcur, List.getElem_append]
  by_cases hkf : k < f.length
  · rw [if_neg (by omega), dif_pos hkf, hread k hkf]
  · rw [if_pos (by simp at hk; omega), dif_neg hkf, List.getElem_singleton]

/-- Escaped bytes fed at a token boundary, with room for what they stand for, are held after what was held before. -/
theorem rxChunk_escape (m : Bytes) {s : State} {f : Bytes} (he : s.rxEsc = false) (hf : Holds s f)
    (hroom : f.length + m.length ≤ s.cfg.capacity) :
    ∃ t, rxChunk (escape m) s = .ok t ∧ t.cfg = s.cfg ∧ t.rxEsc = false ∧ Holds t (f ++ m) := by
  induction m generalizing s f with
  | nil => exact ⟨s, rfl, rfl, he, by simpa using hf⟩
  | cons b m ih =>
    rw [List.length_cons] at hroom
    have hlt : f.length < s.cfg.capacity := by omega
    have hcur : s.rxCursor < s.cfg.capacity := hf.1 ▸ hlt
    rw [List.append_cons]
    have hrest : (f ++ [b]).length + m.length ≤ s.cfg.capacity := by simp; omega
    by_cases hb : b = escByte
    · subst hb
      rw [escape_esc, rxChunk_cons_ok (rxByte_normal_esc he hcur),
        rxChunk_cons_ok (rxByte_escaping_esc (s := (s.setEsc true).raise .none) rfl hcur)]
      exact ih rfl ((hf.push hlt escByte).congr rfl rfl rfl) hrest
    · rw [escape_ne hb, rxChunk_cons_ok (rxByte_normal_lit he hcur hb)]
      exact ih he ((hf.push hlt b).congr rfl rfl rfl) hrest

/-- The wire form of a frame, fed to a receiver at reset with room for it, ends in PARSE of exactly that frame. -/
theorem rxChunk_wireFrame {r : State} {f : Bytes} {ev : RxEvent} (hr : RxAtReset r) (hroom : f.length < r.cfg.capacity)
    (hparse : ∀ t, Holds t f → parse t = .ok ev) :
    ∃ v, rxChunk (wireFrame f) r = .ok v ∧ v.rxEvent = some ev := by
  obtain ⟨he, hcur, -⟩ := hr
  have hnil : Holds r [] := ⟨hcur, Nat.zero_le _, by simp⟩
  obtain ⟨t, ht, hcfg, hesc, hf⟩ := rxChunk_escape f he hnil (by simpa using hroom.le)
  rw [List.nil_append] at hf
  have htroom : t.rxCursor < t.cfg.capacity := by rw [hf.1, hcfg]; exact hroom
  have hev : parse ((t.setEsc true).raise .none) = .ok ev := hparse _ (hf.congr rfl rfl rfl)
  refine ⟨(((t.setEsc true).raise .none).sessionReset).raise ev, ?_, by simp [State.rxEvent]⟩
  rw [wireFrame, rxChunk_append, ht]
  simp only [Except.bind, hardTerminator]
  rw [rxChunk_cons_ok (rxByte_normal_esc hesc htroom), rxChunk_one, rxByte_escaping_term rfl, hev]
  rfl

theorem Holds.bufRead {s : State} {f : Bytes} (h : Holds s f) {k : Nat} (hk : k < f.length) : s.bufRead k = .ok f[k] := by
  obtain ⟨-, hcap, hread⟩ := h
  exact bufRead_ok_iff.mpr ⟨hk.trans_le hcap, hread k hk⟩

theorem Holds.bufRange {s : State} {a b : Bytes} (h : Holds s (a ++ b)) :
    s.bufRange a.length (s.rxCursor - a.length) = .ok b := by
  obtain ⟨hcur, hcap, hread⟩ := h
  have hlen : s.rxCursor - a.length = b.length := by rw [hcur, List.length_append, Nat.add_sub_cancel_left]
  rw [hlen]
  refine bufRange_eq (by simpa using hcap) fun k hk => ?_
  rw [hread (a.length + k) (by simp; omega)]
  simp

/-- PARSE of a frame of 8 bytes or more whose first four are a checksum in hex: that checksum decides (rules R162 to R164). -/
theorem parse_hex4_append {s : State} {sum : Half} {b4 ty q6 q7 : Byte} {m : Bytes}
    (h : Holds s (hex4 sum ++ b4 :: ty :: q6 :: q7 :: m)) :
    parse s = .ok (if sum = csum csumSeed (b4 :: ty :: q6 :: q7 :: m) then
      .frameOk (8 + m.length) ty (seqFields q6 q7).1 (seqFields q6 q7).2 else .errChecksum (8 + m.length)) := by
  have hcur : s.rxCursor = 8 + m.length := by
    rw [h.1, List.length_append, hex4_length]
    simp [csumFieldLen]
    omega
  have hlong : ¬ s.rxCursor < minFrameLen := by rw [hcur, minFrameLen]; omega
  have hlen : 8 ≤ (hex4 sum ++ b4 :: ty :: q6 :: q7 :: m).length := by rw [← h.1, hcur]; omega
  have h0 : s.bufRead 0 = .ok (hexDigit (sum.extractLsb' 12 4)) := h.bufRead (by omega)
  have h1 : s.bufRead 1 = .ok (hexDigit (sum.extractLsb' 8 4)) := h.bufRead (by omega)
  have h2 : s.bufRead 2 = .ok (hexDigit (sum.extractLsb' 4 4)) := h.bufRead (by omega)
  have h3 : s.bufRead 3 = .ok (hexDigit (sum.extractLsb' 0 4)) := h.bufRead (by omega)
  have h5 : s.bufRead 5 = .ok ty := h.bufRead (by omega)
  have h6 : s.bufRead 6 = .ok q6 := h.bufRead (by omega)
  have h7 : s.bufRead 7 = .ok q7 := h.bufRead (by omega)
  have hbody : s.bufRange csumFieldLen (s.rxCursor - csumFieldLen) = .ok (b4 :: ty :: q6 :: q7 :: m) := h.bufRange
  rw [parse, if_neg hlong, ← hcur]
  simp only [h0, h1, h2, h3, h5, h6, h7, hbody, unhex4_hexDigits, bind, Except.bind]
  split <;> rfl

/-! ## A message changed between the two passes -/

/-- The writes of the host reach a range of which nothing is read yet, one after the other. -/
theorem run_msgWrites (writes : List (Nat × Byte)) {s : State} {use : TxUse} {burst : Burst} {rest : Emission}
    {inputs : List Input} (hwait : s.tx = .waiting use burst rest) (hread : rest.read = 0)
    (hin : s.inbox = writes.map (fun w => Input.msgWrite w.1 w.2) ++ inputs) (k : Nat) :
    Host.Core.run core (writes.length + k) s = Host.Core.run core k { s with
      inbox := inputs
      tx := .waiting use burst { rest with unread := writes.foldl (fun l w => l.set w.1 w.2) rest.unread } } := by
  induction writes generalizing s rest with
  | nil =>
    obtain rfl : s.inbox = inputs := hin
    rw [List.foldl_nil, ← hwait, List.length_nil, Nat.zero_add]
  | cons w writes ih =>
    have hchange : rest.change w.1 w.2 = { rest with unread := rest.unread.set w.1 w.2 } := by
      simp [Emission.change, hread]
    have hin' : s.inbox = .msgWrite w.1 w.2 :: (writes.map (fun w => Input.msgWrite w.1 w.2) ++ inputs) := hin
    have hstep := step_msgWrite_waiting hin' hwait
    rw [hchange] at hstep
    rw [List.length_cons, Nat.add_right_comm, run_of_next (M := core) _ hstep]
    exact ih (s := { s with inbox := _, tx := _ }) rfl hread rfl

/-- Nothing to hand over: the operation ends with `OK`. -/
theorem emit_no_burst {s : State} {use : TxUse} {e : Emission} (h : e.bursts = []) :
    s.emit use e =
      { s with tx := .idle, txAnswers := s.txAnswers ++ [{ status := okStatus, result := none }] } := by
  rw [State.emit, runSink_of_none (emission_next_eq_none_iff.mpr h), recordSink_done rfl, List.append_nil, List.append_nil]

/-- No answer there: the next burst is presented and the operation waits. -/
theorem emit_no_answer {s : State} {use : TxUse} {e rest : Emission} {b : Burst} (hnone : s.sinkAnswers = [])
    (h : e.next = some (b, rest)) :
    s.emit use e = { s with bursts := s.bursts ++ [b], tx := .waiting use b rest } := by
  rw [State.emit, hnone, runSink_no_answer h, recordSink_waiting rfl, List.append_nil, ← hnone]

theorem step_sink_ok {s : State} {a : SinkAnswer} {inputs : List Input} {use : TxUse} {burst : Burst} {rest : Emission}
    (h : s.inbox = .sink a :: inputs) (hwait : s.tx = .waiting use burst rest) (hnone : s.sinkAnswers = [])
    (ha : a.status = okStatus) :
    step s = .next ({ s with inbox := inputs, wire := s.wire ++ burst }.emit use rest) := by
  rw [step_eq_of_other (t := (s.withInbox inputs).takeSinkAnswer a) (by simp [fetch, h]),
    takeSinkAnswer_ok (s := s.withInbox inputs) hwait hnone ha]
  rfl

/-- A waiting operation whose sink answers `OK`, now and for every later burst, puts them all on the wire and ends `OK`. -/
theorem run_sink_allOk {oks : List SinkAnswer} {s : State} {use : TxUse} {burst : Burst} {rest : Emission}
    {inputs : List Input} (hwait : s.tx = .waiting use burst rest) (hnone : s.sinkAnswers = []) (hok : AllOk oks)
    (hlen : oks.length = rest.bursts.length + 1) (hin : s.inbox = oks.map .sink ++ inputs) :
    Host.Core.run core oks.length s = .next { s with
      inbox := inputs, tx := .idle, bursts := s.bursts ++ rest.bursts,
      wire := s.wire ++ burst ++ rest.bursts.flatten,
      txAnswers := s.txAnswers ++ [{ status := okStatus, result := none }] } := by
  induction oks generalizing s burst rest with
  | nil => simp at hlen
  | cons a oks ih =>
    obtain ⟨ha, hoks⟩ := List.forall_mem_cons.mp hok
    have hin' : s.inbox = .sink a :: (oks.map .sink ++ inputs) := hin
    rw [List.length_cons]
    cases hbs : rest.bursts with
    | nil =>
      obtain rfl : oks = [] := by simpa [hbs] using hlen
      have hstep := (step_sink_ok hin' hwait hnone ha).trans (congrArg Host.Outcome.next (emit_no_burst hbs))
      exact (run_of_next (M := core) 0 hstep).trans (by simp [Host.Core.run])
    | cons c cs =>
      obtain ⟨rest', hn, rfl⟩ := emission_next_of_bursts hbs
      have hlen' : oks.length = rest'.bursts.length + 1 := by simpa [hbs] using hlen
      have hstep := (step_sink_ok hin' hwait hnone ha).trans (congrArg Host.Outcome.next (emit_no_answer hnone hn))
      rw [run_of_next (M := core) _ hstep]
      refine (ih (s := { s with inbox := _, wire := _, bursts := _, tx := _ }) rfl hnone hoks hlen' rfl).trans ?_
      simp

/-- The writes of the host, then an `OK` for every burst: what goes out is the range as the host left it. -/
theorem run_msgWrites_sink_allOk {writes : List (Nat × Byte)} {oks : List SinkAnswer} {s : State} {use : TxUse}
    {burst : Burst} {rest changed : Emission} {inputs : List Input} (hwait : s.tx = .waiting use burst rest)
    (hread : rest.read = 0) (hnone : s.sinkAnswers = []) (hok : AllOk oks)
    (hchanged : changed = { rest with unread := writes.foldl (fun l w => l.set w.1 w.2) rest.unread })
    (hlen : oks.length = changed.bursts.length + 1)
    (hin : s.inbox = writes.map (fun w => Input.msgWrite w.1 w.2) ++ oks.map Input.sink ++ inputs) :
    Host.Core.run core (writes.length + oks.length) s = .next { s with
      inbox := inputs, tx := .idle, bursts := s.bursts ++ changed.bursts,
      wire := s.wire ++ burst ++ changed.bursts.flatten,
      txAnswers := s.txAnswers ++ [{ status := okStatus, result := none }] } := by
  subst hchanged
  rw [List.append_assoc] at hin
  exact (run_msgWrites writes hwait hread hin _).trans (run_sink_allOk rfl hnone hok hlen rfl)

/-- What SENDLOG has left to emit when its header is presented: the message, of which it has read nothing a second time, and
the terminator (rules R55, R121). -/
def messageEmission (m : Bytes) : Emission := { ready := [], read := 0, unread := m, closing := [hardTerminator] }

@[simp] theorem messageEmission_bursts (m : Bytes) : (messageEmission m).bursts = escBursts m ++ [hardTerminator] := rfl

/-- SENDLOG with no answer there reads the message for the checksum, presents the header and waits. -/
theorem exec_sendlog_no_answer {s : State} (level : Level) (m : Bytes) (hidle : s.tx = .idle) (hnone : s.sinkAnswers = []) :
    exec (.sendlog level m) s = .next { s with
      bursts := s.bursts ++ [logHeader level m]
      tx := .waiting (.sendlog (logCsum level m) (logHeader level m)) (logHeader level m) (messageEmission m) } := by
  rw [exec_sendlog, startTx_idle hidle, logEmission, escBursts_logHeader,
    emit_no_answer hnone (emission_next_ready _ _ _ _ _), messageEmission]

/-- The checksum field of a log header covers the bytes after it and the message (rules R121, R123). -/
theorem logHeader_take_eq_hex4 (level : Level) (m : Bytes) :
    (logHeader level m).take csumFieldLen = hex4 (csum csumSeed ((logHeader level m).drop csumFieldLen ++ m)) := by
  obtain ⟨-, htake⟩ := headerHoldsChecksum_logHeader level m _ _ rfl
  rw [htake, logCsum, logHeader, List.drop_left' (hex4_length _), csum_append]

/-- A log header over a message other than its own: PARSE accepts exactly where the two have the same checksum. -/
theorem parse_logHeader_append {s : State} {level : Level} {m changed : Bytes}
    (h : Holds s (logHeader level m ++ changed)) :
    parse s = .ok (if csum csumSeed changed = csum csumSeed m then .frameOk (13 + changed.length) 0x4C#8 false 0x00#8
      else .errChecksum (13 + changed.length)) := by
  have htail : logHeaderTail level ++ changed =
      0x20#8 :: 0x4C#8 :: 0x4F#8 :: 0x47#8 :: (0x20#8 :: levelTag level ++ [0x20#8] ++ changed) := rfl
  have hsum : logCsum level m = csum csumSeed (logHeaderTail level ++ changed) ↔
      csum csumSeed changed = csum csumSeed m := by
    rw [logCsum, csum_append, eq_comm, csum_eq_csum_iff]
  have hseq : seqFields 0x4F#8 0x47#8 = (false, 0x00#8) := by decide
  have hlen : 8 + (0x20#8 :: levelTag level ++ [0x20#8] ++ changed).length = 13 + changed.length := by
    simp
    omega
  rw [logHeader, List.append_assoc, htail] at h
  rw [parse_hex4_append h, ← htail, hlen, hseq]
  simp only [hsum]

/-- The wire form of a log header and a message: nothing of the header is escaped. -/
theorem wireFrame_logHeader_append (level : Level) (m changed : Bytes) :
    wireFrame (logHeader level m ++ changed) = logHeader level m ++ escape changed ++ hardTerminator := by
  rw [wireFrame, escape_append, escape_of_not_mem (escByte_not_mem_logHeader level m)]

theorem foldl_set_length (writes : List (Nat × Byte)) (m : Bytes) :
    (writes.foldl (fun l w => l.set w.1 w.2) m).length = m.length := by
  induction writes generalizing m with
  | nil => rfl
  | cons w writes ih => rw [List.foldl_cons, ih, List.length_set]

/-- Settles O54: the header goes out with the checksum of the bytes read when the command started; the message is read again
only after the writes, and PARSE compares the two. -/
theorem changedMessageKeepsTheOldChecksum : Obligations.ChangedMessageKeepsTheOldChecksum := by
  intro s level m changed writes oks inputs hidle hnone hok hchanged hlen
  have hsame : changed.length = m.length := by rw [hchanged, foldl_set_length]
  have hlen' : oks.length = (messageEmission changed).bursts.length + 1 := by simp [hlen]
  have hflat : (messageEmission changed).bursts.flatten = escape changed ++ hardTerminator := by
    rw [messageEmission_bursts, List.flatten_append, escBursts_flatten, List.flatten_singleton]
  have hafter : messageEmission changed =
      { messageEmission m with unread := writes.foldl (fun l w => l.set w.1 w.2) (messageEmission m).unread } := by
    rw [hchanged]
    rfl
  refine ⟨logHeader level m, _, _, rfl, logHeader_take_eq_hex4 level m, exec_sendlog_no_answer level m hidle hnone,
    run_msgWrites_sink_allOk rfl rfl hnone hok hafter hlen' rfl, rfl, rfl, ?bursts, ?wire, rfl,
    fun r hr hroom => ?received⟩
  case bursts => exact (List.append_assoc _ _ _).symm
  case wire => exact (congrArg (s.wire ++ logHeader level m ++ ·) hflat).trans (List.append_assoc _ _ _).symm
  case received =>
    have hlt : (logHeader level m ++ changed).length < r.cfg.capacity := by
      rw [List.length_append, logHeader_length, hsame, hdrLen]
      omega
    obtain ⟨v, hv, hev⟩ := rxChunk_wireFrame hr hlt fun t => parse_logHeader_append (s := t)
    rw [wireFrame_logHeader_append] at hv
    rw [hsame] at hev
    exact ⟨v, hv, fun hne => hev.trans (congrArg some (if_neg hne)), fun heq => hev.trans (congrArg some (if_pos heq))⟩

end Sys2Proof.Machine
end

section
/-! PROOFS. The encoding: tokens and command words field by field, decode against encode, and what a packet at the
ports makes a step do. -/

namespace Sys2Proof.Machine

/-! ## Tokens -/

@[simp] theorem escapedToken_escByte : escapedToken escByte = .escesc := if_pos rfl

@[simp] theorem escapedToken_termByte : escapedToken termByte = .eof := by
  rw [escapedToken, if_neg escByte_ne_termByte.symm, if_pos rfl]

theorem escapedToken_of_ne {x : Byte} (he : x ≠ escByte) (ht : x ≠ termByte) : escapedToken x = .escbad x := by
  rw [escapedToken, if_neg he, if_neg ht]

theorem decode_token_lit {b : Byte} (h : b ≠ escByte) : decode (.token [b]) = .ok (.lit b) := by
  simp [decode, h]

@[simp] theorem decode_token_escaped (x : Byte) : decode (.token [escByte, x]) = .ok (escapedToken x) := by
  simp [decode]

/-- The two-byte token with second byte `x` encodes to its bytes, whichever of the three it is (rule R76). -/
@[simp] theorem encode_escapedToken (x : Byte) : encode (escapedToken x) = some (.token [escByte, x]) := by
  unfold escapedToken
  split
  · subst_vars; rfl
  · split
    · subst_vars; rfl
    · rfl

/-- A packet of bytes decodes where the bytes are one token, with none left. -/
theorem decode_token_ok_iff {bs : Bytes} {i : Instr} : decode (.token bs) = .ok i ↔ decodeToken bs = .ok (i, []) := by
  rw [decode]
  rcases decodeToken bs with e | ⟨j, _ | ⟨b, left⟩⟩ <;> simp

/-- What stands at the front of a stream is a literal or a two-byte token (rules R76, R77). -/
theorem decodeToken_ok_cases {bs left : Bytes} {i : Instr} (h : decodeToken bs = .ok (i, left)) :
    (∃ b, b ≠ escByte ∧ bs = b :: left ∧ i = .lit b) ∨ ∃ x, bs = escByte :: x :: left ∧ i = escapedToken x := by
  cases bs with
  | nil => cases h
  | cons b bs =>
    by_cases hb : b = escByte
    · subst hb
      cases bs with
      | nil => cases h
      | cons x bs =>
        obtain ⟨rfl, rfl⟩ : escapedToken x = i ∧ bs = left := by simpa using h
        exact .inr ⟨x, rfl, rfl⟩
    · obtain ⟨rfl, rfl⟩ : Instr.lit b = i ∧ bs = left := by simpa [hb] using h
      exact .inl ⟨b, hb, rfl, rfl⟩

/-- The operation a token decodes to encodes to the bytes of that token. -/
theorem encode_of_decode_token {bs : Bytes} {i : Instr} (h : decode (.token bs) = .ok i) :
    encode i = some (.token bs) := by
  obtain ⟨b, -, rfl, rfl⟩ | ⟨x, rfl, rfl⟩ := decodeToken_ok_cases (decode_token_ok_iff.mp h)
  · rfl
  · exact encode_escapedToken x

/-! ## Command words -/

@[simp] theorem decode_txc (w : BitVec 20) (m : Bytes) : decode (.txc w m) = .ok (decodeTx w m) := rfl

@[simp] theorem decode_rxc (w : BitVec 9) : decode (.rxc w) = .ok (decodeRx w) := rfl

/-- A TX command word is its three fields (rule R86). -/
theorem txWord_fields (w : BitVec 20) : txWord (txSeedField w) (txLevelField w) (txOpField w) = w := by
  unfold txWord txSeedField txLevelField txOpField
  ext i hi
  interval_cases i <;> simp [BitVec.getLsbD_eq_getElem]

section
variable (w : BitVec 20) (m : Bytes)

theorem decodeTx_of_op_csum (h : txOpField w = 0#2) : decodeTx w m = .csum (txSeedField w) m := if_pos h

theorem decodeTx_of_op_esc (h : txOpField w = 1#2) : decodeTx w m = .esc m := by simp [decodeTx, h]

theorem decodeTx_of_op_sendlog {level : Level} (h : txOpField w = 2#2) (hl : levelOfField (txLevelField w) = some level) :
    decodeTx w m = .sendlog level m := by
  simp [decodeTx, h, hl]

theorem decodeTx_of_op_sendlogRsvd (h : txOpField w = 2#2) (hl : txLevelField w = 3#2) :
    decodeTx w m = .sendlogRsvd m := by
  simp [decodeTx, h, hl, levelOfField]

theorem decodeTx_of_op_txRsvd (h : txOpField w = 3#2) : decodeTx w m = .txRsvd m := by simp [decodeTx, h]

end

/-- A TX command word starts an operation on its own byte range (rules R86, R89). -/
theorem decodeTx_cases (w : BitVec 20) (m : Bytes) :
    (∃ sd, decodeTx w m = .csum sd m) ∨ decodeTx w m = .esc m ∨ (∃ level, decodeTx w m = .sendlog level m) ∨
      decodeTx w m = .sendlogRsvd m ∨ decodeTx w m = .txRsvd m := by
  unfold decodeTx
  split
  · exact .inl ⟨_, rfl⟩
  · split
    · exact .inr (.inl rfl)
    · split
      · cases levelOfField (txLevelField w) with
        | some level => exact .inr (.inr (.inl ⟨level, rfl⟩))
        | none => exact .inr (.inr (.inr (.inl rfl)))
      · exact .inr (.inr (.inr (.inr rfl)))

/-- The level field counts for SENDLOG alone and the seed field for CSUM alone (rules R89, R93). -/
theorem decodeTx_congr {w w' : BitVec 20} (m : Bytes) (hop : txOpField w' = txOpField w)
    (hlevel : txOpField w = 2#2 → txLevelField w' = txLevelField w)
    (hseed : txOpField w = 0#2 → txSeedField w' = txSeedField w) : decodeTx w' m = decodeTx w m := by
  unfold decodeTx
  rw [hop]
  split
  · rw [hseed ‹_›]
  · split
    · rfl
    · split
      · rw [hlevel ‹_›]
      · rfl

section
variable (sd : Half) (lv : BitVec 2) (m : Bytes) (b : Byte)

@[simp] theorem decodeTx_txWord_csum : decodeTx (txWord sd lv 0#2) m = .csum sd m := by
  rw [decodeTx_of_op_csum _ m (txOpField_txWord sd lv _), txSeedField_txWord]

@[simp] theorem decodeTx_txWord_esc : decodeTx (txWord sd lv 1#2) m = .esc m :=
  decodeTx_of_op_esc _ m (txOpField_txWord sd lv _)

@[simp] theorem decodeTx_txWord_sendlog (level : Level) :
    decodeTx (txWord sd (levelField level) 2#2) m = .sendlog level m :=
  decodeTx_of_op_sendlog _ m (txOpField_txWord sd _ _) (by simp)

@[simp] theorem decodeTx_txWord_sendlogRsvd : decodeTx (txWord sd 3#2 2#2) m = .sendlogRsvd m :=
  decodeTx_of_op_sendlogRsvd _ m (txOpField_txWord sd _ _) (txLevelField_txWord sd _ _)

@[simp] theorem decodeTx_txWord_txRsvd : decodeTx (txWord sd lv 3#2) m = .txRsvd m :=
  decodeTx_of_op_txRsvd _ m (txOpField_txWord sd lv _)

@[simp] theorem decodeRx_rxWord_rxinit : decodeRx (rxWord 1#1 b) = .rxinit := by simp [decodeRx]

@[simp] theorem decodeRx_rxWord_rxbyte : decodeRx (rxWord 0#1 b) = .rxbyte b := by simp [decodeRx]

end

/-- The operation of a TX command word encodes, ignored fields zero, to a word that starts it on the same range. -/
theorem decodeTx_reencodes (w : BitVec 20) (m : Bytes) :
    ∃ w', encode (decodeTx w m) = some (.txc w' m) ∧ decodeTx w' m = decodeTx w m := by
  obtain ⟨sd, h⟩ | h | ⟨level, h⟩ | h | h := decodeTx_cases w m <;> rw [h]
  · exact ⟨_, rfl, decodeTx_txWord_csum sd _ m⟩
  · exact ⟨_, rfl, decodeTx_txWord_esc _ _ m⟩
  · exact ⟨_, rfl, decodeTx_txWord_sendlog _ m level⟩
  · exact ⟨_, rfl, decodeTx_txWord_sendlogRsvd _ m⟩
  · exact ⟨_, rfl, decodeTx_txWord_txRsvd _ _ m⟩

theorem decodeRx_reencodes (w : BitVec 9) :
    ∃ w', encode (decodeRx w) = some (.rxc w') ∧ decodeRx w' = decodeRx w := by
  unfold decodeRx
  split
  · exact ⟨_, rfl, decodeRx_rxWord_rxinit _⟩
  · exact ⟨_, rfl, decodeRx_rxWord_rxbyte _⟩

/-! ## What a packet at the ports makes a step do -/

theorem step_tx {s : State} {w : BitVec 20} {m : Bytes} {rest : List Input} (h : s.inbox = .tx w m :: rest) :
    step s = exec (decodeTx w m) (s.withInbox rest) :=
  step_eq_of_op (by simp [fetch, h])

theorem step_rx {s : State} {w : BitVec 9} {rest : List Input} (h : s.inbox = .rx w :: rest) :
    step s = exec (decodeRx w) (s.withInbox rest) :=
  step_eq_of_op (by simp [fetch, h])

/-- At a token boundary the token at the front of a chunk is what the step runs (rule R77). -/
theorem step_token {s : State} {b : Byte} {bs left : Bytes} {i : Instr} {rest : List Input} (he : s.rxEsc = false)
    (h : s.inbox = .chunk (b :: bs) :: rest) (hd : decodeToken (b :: bs) = .ok (i, left)) :
    step s = exec i (s.withInbox (pushChunk left rest)) := by
  have hcut : cutStream s.rxEsc b bs = (i, left) := by simp [cutStream, he, hd]
  exact step_eq_of_op (by simp [fetch, h, hcut])

/-- A packet that decodes, presented, is what the step runs, and nothing more is taken. -/
theorem step_present {s : State} {p : Packet} {i : Instr} (h : decode p = .ok i) :
    step (s.present p) = exec i ((s.present p).withInbox s.inbox) := by
  cases p with
  | txc w m =>
    obtain rfl : decodeTx w m = i := by simpa using h
    exact step_tx rfl
  | rxc w =>
    obtain rfl : decodeRx w = i := by simpa using h
    exact step_rx rfl
  | token bs =>
    have hd := decode_token_ok_iff.mp h
    cases bs with
    | nil => cases hd
    | cons b bs => exact step_token (s := s.present (.token (b :: bs))) (left := []) (rest := s.inbox) rfl rfl hd

theorem decodeTableWord_eq_some_iff {nbits w : Nat} {i : Instr} :
    decodeTableWord nbits w = some i ↔ ∃ p, tablePacket nbits w = some p ∧ decode p = .ok i := by
  unfold decodeTableWord
  cases tablePacket nbits w with
  | none => simp
  | some p => cases hp : decode p <;> simp [hp]

theorem withFetchWord_of_tablePacket {nbits w : Nat} {p : Packet} (h : tablePacket nbits w = some p) (s : State) :
    s.withFetchWord nbits w = s.present p := by
  simp [State.withFetchWord, h]

/-! ## Reserved commands on an idle path -/

theorem exec_txRsvd_idle {s : State} (h : s.tx = .idle) (m : Bytes) :
    exec (.txRsvd m) s = .next (s.answer (ErrorKind.badcmd.code s.cfg) none) :=
  (exec_txRsvd m s).trans (startTx_idle h _)

theorem exec_sendlogRsvd_idle {s : State} (h : s.tx = .idle) (m : Bytes) :
    exec (.sendlogRsvd m) s = .next (s.answer (ErrorKind.level.code s.cfg) none) :=
  (exec_sendlogRsvd m s).trans (startTx_idle h _)

/-! ## The statements -/

/-- Settles O1: one equation per operation; a token's operand decides which token it is, so there well-formedness counts. -/
theorem decodeEncodeRoundTrip : Obligations.DecodeEncodeRoundTrip := by
  intro c i hwf hparse
  cases i with
  | lit b => exact ⟨_, rfl, decode_token_lit (of_decide_eq_true hwf)⟩
  | escesc => exact ⟨_, rfl, by simp⟩
  | eof => exact ⟨_, rfl, by simp⟩
  | escbad x =>
    obtain ⟨he, ht⟩ : x ≠ escByte ∧ x ≠ termByte := by simpa [Instr.wf] using hwf
    exact ⟨_, rfl, by rw [decode_token_escaped, escapedToken_of_ne he ht]⟩
  | csum sd m => exact ⟨_, rfl, by simp⟩
  | esc m => exact ⟨_, rfl, by simp⟩
  | sendlog level m => exact ⟨_, rfl, by simp⟩
  | sendlogRsvd m => exact ⟨_, rfl, by simp⟩
  | txRsvd m => exact ⟨_, rfl, by simp⟩
  | rxbyte b => exact ⟨_, rfl, by simp⟩
  | rxinit => exact ⟨_, rfl, by simp⟩
  | parse => exact absurd rfl hparse

/-- Settles O3: a token encodes to its bytes, a command word to the word with its ignored fields zero. -/
theorem decodedOperationsReencode : Obligations.DecodedOperationsReencode := by
  intro p i h
  cases p with
  | token bs => exact ⟨_, encode_of_decode_token h, h, rfl⟩
  | txc w m =>
    cases h
    obtain ⟨w', henc, hdec⟩ := decodeTx_reencodes w m
    exact ⟨_, henc, congrArg _ hdec, w', rfl⟩
  | rxc w =>
    cases h
    obtain ⟨w', henc, hdec⟩ := decodeRx_reencodes w
    exact ⟨_, henc, congrArg _ hdec, w', rfl⟩

/-- Settles O4: the equations of the two command words. -/
theorem commandWordFields : Obligations.CommandWordFields :=
  ⟨txWord_fields,
    fun sd lv m => ⟨decodeTx_txWord_csum sd lv m, decodeTx_txWord_esc sd lv m, decodeTx_txWord_txRsvd sd lv m⟩,
    fun sd m => ⟨decodeTx_txWord_sendlog sd m .debug, decodeTx_txWord_sendlog sd m .info,
      decodeTx_txWord_sendlog sd m .error⟩,
    decodeTx_txWord_sendlogRsvd,
    fun b => ⟨decodeRx_rxWord_rxinit b, decodeRx_rxWord_rxbyte b⟩⟩

/-- Settles O5: each word is written out, so the decoders evaluate. -/
theorem specWordsDecode : Obligations.SpecWordsDecode :=
  ⟨rfl, rfl, rfl, rfl, rfl, rfl, rfl, rfl, rfl, rfl, rfl, rfl, rfl, rfl⟩

/-- Settles O6: a cut of the stream feeds the bytes it takes. -/
theorem tokensAreTheirBytes : Obligations.TokensAreTheirBytes := by
  intro s b bs
  obtain ⟨fed, hne, hfed, hexec⟩ := cutStream_feeds s.rxEsc b bs
  exact ⟨fed, hne, hfed.symm, hexec s⟩

/-- Settles O21: a reserved code decodes to its reserved operation, which answers its error on an idle path. -/
theorem reservedCommandWordsDoNothing : Obligations.ReservedCommandWordsDoNothing := by
  intro s w m rest hidle hin
  have hidle' : (s.withInbox rest).tx = .idle := hidle
  refine ⟨fun hop => ?badcmd, fun hop hlevel => ?level, fun w' => decodeTx_congr m, fun b b' => ?init⟩
  case badcmd =>
    have hdec := decodeTx_of_op_txRsvd w m hop
    refine ⟨hdec, exec_txRsvd_idle hidle m, ?_⟩
    rw [step_tx hin, hdec, exec_txRsvd_idle hidle' m]
    rfl
  case level =>
    have hdec := decodeTx_of_op_sendlogRsvd w m hop hlevel
    refine ⟨hdec, ?_⟩
    rw [step_tx hin, hdec, exec_sendlogRsvd_idle hidle' m]
    rfl
  case init => rw [decodeRx_rxWord_rxinit, decodeRx_rxWord_rxinit]

/-- Settles O43: a step runs what stands at the front of the inbox; a table word stands there as its packet. -/
theorem stepRunsTheDecodedOperation : Obligations.StepRunsTheDecodedOperation := by
  refine ⟨fun s p i h => ?packet, fun s w m rest => step_tx, fun s w rest => step_rx,
    fun s b bs i left rest => step_token, fun s nbits w i h => ?tableWord⟩
  case packet =>
    rw [step_present h]
    cases p <;> rfl
  case tableWord =>
    obtain ⟨p, hp, hdec⟩ := decodeTableWord_eq_some_iff.mp h
    rw [withFetchWord_of_tablePacket hp, step_present hdec]
    cases p with
    | token bs => exact .inr rfl
    | txc w m => exact .inl rfl
    | rxc w => exact .inl rfl

end Sys2Proof.Machine
end

section
/-! PROOFS. Hex fields: the digit tables range by range, and fields as the digits shifted and combined. -/

namespace Sys2Proof.Machine

/-- The digit table of rule R80, in numbers. -/
theorem hexDigit_toNat : ∀ n : BitVec 4,
    (hexDigit n).toNat = if n.toNat ≤ 9 then 0x30 + n.toNat else 0x41 + (n.toNat - 10) := by
  decide

/-- The value table of rule R81, in numbers. -/
theorem hexVal_toNat (c : Byte) : (hexVal c).map BitVec.toNat =
    if 0x30 ≤ c.toNat ∧ c.toNat ≤ 0x39 then some (c.toNat - 0x30)
    else if 0x41 ≤ c.toNat ∧ c.toNat ≤ 0x46 then some (c.toNat - 0x37)
    else if 0x61 ≤ c.toNat ∧ c.toNat ≤ 0x66 then some (c.toNat - 0x57)
    else none := by
  simp only [hexVal, BitVec.le_def, BitVec.toNat_ofNat, Nat.reducePow, Nat.reduceMod]
  split
  · simp [BitVec.toNat_sub]; omega
  · split
    · simp [BitVec.toNat_sub]; omega
    · split
      · simp [BitVec.toNat_sub]; omega
      · rfl

/-- The hex digits are the bytes of the three ranges (rule R81). -/
theorem isHex_iff_range {c : Byte} : isHex c = true ↔ (0x30 ≤ c.toNat ∧ c.toNat ≤ 0x39) ∨
    (0x41 ≤ c.toNat ∧ c.toNat ≤ 0x46) ∨ (0x61 ≤ c.toNat ∧ c.toNat ≤ 0x66) := by
  rw [isHex, ← Option.isSome_map (f := BitVec.toNat), hexVal_toNat]
  split_ifs <;> simp [*]

theorem isHex_eq_false_iff {c : Byte} : isHex c = false ↔ hexVal c = none := by simp [isHex]

/-- The nibbles of a number written as four hexadecimal digits are those digits. -/
theorem extractLsb'_of_toNat_eq {v : Half} {a b c d : BitVec 4}
    (h : v.toNat = a.toNat * 4096 + b.toNat * 256 + c.toNat * 16 + d.toNat) :
    v.extractLsb' 12 4 = a ∧ v.extractLsb' 8 4 = b ∧ v.extractLsb' 4 4 = c ∧ v.extractLsb' 0 4 = d := by
  simp only [← BitVec.toNat_inj, BitVec.extractLsb'_toNat, Nat.shiftRight_eq_div_pow, h]
  omega

/-- Four nibbles shifted and combined: the number with these hexadecimal digits (rule R83). -/
theorem toNat_nibbles_or (a b c d : BitVec 4) :
    (a.setWidth 16 <<< 12 ||| b.setWidth 16 <<< 8 ||| c.setWidth 16 <<< 4 ||| d.setWidth 16).toNat =
      a.toNat * 4096 + b.toNat * 256 + c.toNat * 16 + d.toNat := by
  have hv : (BitVec.ofNat 16 (a.toNat * 4096 + b.toNat * 256 + c.toNat * 16 + d.toNat)).toNat =
      a.toNat * 4096 + b.toNat * 256 + c.toNat * 16 + d.toNat := by
    rw [BitVec.toNat_ofNat]; omega
  obtain ⟨ha, hb, hc, hd⟩ := extractLsb'_of_toNat_eq hv
  rw [← hv, ← nibbles_or (BitVec.ofNat 16 _), ha, hb, hc, hd]

theorem toNat_nibbles_or_byte : ∀ a b : BitVec 4,
    (a.setWidth 8 <<< 4 ||| b.setWidth 8).toNat = a.toNat * 16 + b.toNat := by
  decide

/-- Settles O7: the tables in numbers, range by range. -/
theorem hexDigitTables : Obligations.HexDigitTables := by
  refine ⟨fun n => ⟨fun h => ?_, fun h => ?_⟩, fun c => isHex_iff_range, fun c => ⟨isHex_eq_false_iff.mp, ?_⟩⟩
  · rw [hexDigit_toNat, if_pos h]
  · rw [hexDigit_toNat, if_neg (by omega)]
  · rw [hexVal_toNat]
    refine ⟨fun h1 h2 => ?_, fun h1 h2 => ?_, fun h1 h2 => ?_⟩
    · rw [if_pos ⟨h1, h2⟩]
    · rw [if_neg (by omega), if_pos ⟨h1, h2⟩]
    · rw [if_neg (by omega), if_neg (by omega), if_pos ⟨h1, h2⟩]

/-- Settles O8: a field is its digits by position; `Unhex4` combines the nibbles `Hex4` writes. -/
theorem hexFieldsShiftAndCombine : Obligations.HexFieldsShiftAndCombine := by
  refine ⟨fun v a b c d h => ?hex4, fun c0 c1 c2 c3 => ?digits4, fun c0 c1 c2 c3 a b c d ha hb hc hd => ?value4,
    fun v => ⟨_, _, _, _, rfl, unhex4_hexDigits v⟩, fun c0 c1 => ?digits2, fun c0 c1 a b ha hb => ?value2⟩
  case hex4 =>
    obtain ⟨rfl, rfl, rfl, rfl⟩ := extractLsb'_of_toNat_eq h
    rfl
  case digits4 => simp [unhex4_isSome, and_assoc]
  case value4 => simp only [unhex4, ha, hb, hc, hd, Option.map_some, toNat_nibbles_or]
  case digits2 => simp [unhex2_isSome]
  case value2 => simp only [unhex2, ha, hb, Option.map_some, toNat_nibbles_or_byte]

end Sys2Proof.Machine
end

section
/-! PROOFS. The log frame with a sink that accepts every burst. -/

namespace Sys2Proof.Machine

/-! ## A sink that accepts every burst -/

/-- As many answers `OK` as there are bursts: every burst is presented and accepted, and the later answers are left. -/
theorem runSink_complete {e : Emission} {oks rest : List SinkAnswer} (hok : AllOk oks)
    (hlen : oks.length = e.bursts.length) :
    runSink e (oks ++ rest) =
      { issued := e.bursts, accepted := e.bursts.flatten, left := rest, ended := .done okStatus } := by
  induction oks generalizing e with
  | nil =>
    have hnil : e.bursts = [] := List.eq_nil_of_length_eq_zero hlen.symm
    simp [runSink_of_none (emission_next_eq_none_iff.mpr hnil), hnil]
  | cons a oks ih =>
    obtain ⟨ha, hoks⟩ := List.forall_mem_cons.mp hok
    obtain ⟨b, bs, hbs⟩ := List.exists_cons_of_length_eq_add_one hlen.symm
    obtain ⟨e', hn, rfl⟩ := emission_next_of_bursts hbs
    have hlen' : oks.length = e'.bursts.length := by simpa [hbs] using hlen
    simp [runSink_cons_ok hn ha, ih hoks hlen', hbs]

/-- Handing over an emission that the sink accepts whole: its bytes are on the wire and the operation ends `OK`. -/
theorem emit_complete {s : State} {use : TxUse} {e : Emission} {oks rest : List SinkAnswer} (hidle : s.tx = .idle)
    (hin : s.sinkAnswers = oks ++ rest) (hok : AllOk oks) (hlen : oks.length = e.bursts.length) :
    s.emit use e = { s with
      bursts := s.bursts ++ e.bursts, wire := s.wire ++ e.bursts.flatten, sinkAnswers := rest,
      txAnswers := s.txAnswers ++ [{ status := okStatus, result := none }] } := by
  rw [State.emit, hin, runSink_complete hok hlen, recordSink_done rfl, ← hidle]

/-! ## The log frame -/

theorem logBursts_eq (level : Level) (m : Bytes) :
    logBursts level m = logHeader level m :: (escBursts m ++ [hardTerminator]) := by
  rw [logBursts, escBursts_logHeader]
  rfl

theorem logBursts_flatten (level : Level) (m : Bytes) :
    (logBursts level m).flatten = logHeader level m ++ (escape m ++ hardTerminator) := by
  rw [logBursts_eq, List.flatten_cons, List.flatten_append, escBursts_flatten, List.flatten_singleton]

theorem logCsum_eq (level : Level) (m : Bytes) : logCsum level m = csum csumSeed (logHeaderTail level ++ m) :=
  (csum_append csumSeed (logHeaderTail level) m).symm

theorem exec_sendlog_complete {s : State} {oks rest : List SinkAnswer} (level : Level) (m : Bytes) (hidle : s.tx = .idle)
    (hin : s.sinkAnswers = oks ++ rest) (hok : AllOk oks) (hlen : oks.length = (logBursts level m).length) :
    exec (.sendlog level m) s = .next { s with
      bursts := s.bursts ++ logBursts level m, wire := s.wire ++ (logBursts level m).flatten, sinkAnswers := rest,
      txAnswers := s.txAnswers ++ [{ status := okStatus, result := none }] } := by
  rw [exec_sendlog, startTx_idle hidle,
    emit_complete (e := logEmission level m) hidle hin hok hlen, logEmission_bursts]

/-- Settles O16: the sink accepts the bursts of the log frame one by one. -/
theorem sendlogSendsTheFrame : Obligations.SendlogSendsTheFrame := by
  intro s level tag m oks rest htag hidle hin hlen hok
  have htag' : tag = levelTag level := by obtain ⟨rfl, rfl⟩ | ⟨rfl, rfl⟩ | ⟨rfl, rfl⟩ := htag <;> rfl
  subst htag'
  have hlen' : oks.length = (logBursts level m).length := by simp [logBursts_eq, hlen]
  refine ⟨logHeader level m, ?header, logHeader_length level m, ?frame⟩
  case header =>
    rw [logHeader, logCsum_eq]
    exact (List.append_assoc _ _ _).symm
  case frame =>
    rw [exec_sendlog_complete level m hidle hin hok hlen', logBursts_flatten, logBursts_eq]
    simp [hardTerminator, escByte, termByte, okStatus]

end Sys2Proof.Machine
end

section
/-! PROOFS. The wire tokens at a token boundary: the full test, then the token on what it leaves. -/

namespace Sys2Proof.Machine

/-- The two events of a two-byte token, on the record in order. -/
theorem raise_raise (s : State) (first second : RxEvent) :
    (s.raise first).raise second = { s with rxEvents := s.rxEvents ++ [first, second] } := by
  simp [State.raise]

theorem sessionReset_sessionReset (s : State) : s.sessionReset.sessionReset = s.sessionReset := rfl

section
variable {s : State} (he : s.rxEsc = false)
include he

theorem setEsc_false_of_normal : s.setEsc false = s := by
  rw [← he]
  rfl

theorem sessionReset_of_normal : s.sessionReset = { s with rxCursor := 0 } := by
  rw [State.sessionReset, ← he]

theorem exec_lit_of_normal (hc : 1 ≤ s.cfg.capacity) {b : Byte} (hb : b ≠ escByte) :
    exec (.lit b) s = .next ((s.fullTest.2.push b).raise s.fullTest.1) := by
  simp [exec_lit, rxByte, he, rxNormal, hb, append_of_lt (fullTest_room hc), Except.map]

/-- The first byte of a two-byte token makes the full test and opens the token; the second is read inside it (rules R143,
R144). -/
theorem exec_escapedToken_of_normal (x : Byte) :
    exec (escapedToken x) s = rxOutcome (rxByte x ((s.fullTest.2.setEsc true).raise s.fullTest.1)) := by
  have hopen : rxByte escByte s = .ok ((s.fullTest.2.setEsc true).raise s.fullTest.1) := by simp [rxByte, he, rxNormal]
  rw [exec_escapedToken, rxChunk_cons_ok hopen, rxChunk_one]

theorem exec_escesc_of_normal (hc : 1 ≤ s.cfg.capacity) :
    exec .escesc s = .next (((s.fullTest.2.push escByte).raise s.fullTest.1).raise .none) := by
  have hclosed : ((s.fullTest.2.setEsc true).raise s.fullTest.1).setEsc false = s.fullTest.2.raise s.fullTest.1 :=
    congrArg (State.raise · s.fullTest.1) (setEsc_false_of_normal (fullTest_rxEsc_of_normal he))
  have hroom := fullTest_room hc
  rw [← escapedToken_escByte, exec_escapedToken_of_normal he,
    rxByte_escaping_esc (s := (s.fullTest.2.setEsc true).raise s.fullTest.1) rfl hroom, rxOutcome_ok, hclosed]
  rfl

/-- PARSE runs on what the full test left. -/
theorem exec_eof_of_normal {ev : RxEvent} (hparse : parse s.fullTest.2 = .ok ev) :
    exec .eof s = .next ((s.fullTest.2.sessionReset.raise s.fullTest.1).raise ev) := by
  have hopen : parse ((s.fullTest.2.setEsc true).raise s.fullTest.1) = .ok ev := by
    rw [← hparse]
    exact parse_congr rfl rfl rfl
  rw [← escapedToken_termByte, exec_escapedToken_of_normal he, rxByte_escaping_term rfl, hopen]
  rfl

theorem exec_escbad_of_normal {x : Byte} (hx : x ≠ escByte) (hx' : x ≠ termByte) :
    exec (.escbad x) s =
      .next ((s.fullTest.2.sessionReset.raise s.fullTest.1).raise (.errProtocol s.fullTest.2.rxCursor x)) := by
  rw [← escapedToken_of_ne hx hx', exec_escapedToken_of_normal he, rxByte_escaping_bad rfl hx hx']
  rfl

end

/-! ## The statement -/

/-- Settles O28: each token after a full test that finds room or resets the session. -/
theorem tokenEffects : Obligations.TokenEffects := by
  intro s he
  refine ⟨fun hr => ?room, fun hfull hc => ?full⟩
  case room =>
    have hc : 1 ≤ s.cfg.capacity := Nat.one_le_of_lt hr
    have htest := fullTest_of_lt hr
    refine ⟨fun b hb => ?_, ?_, fun ev hev => ?_, fun x hx hx' => ?_⟩
    · rw [exec_lit_of_normal he hc hb, htest]
      rfl
    · rw [exec_escesc_of_normal he hc, htest, raise_raise]
      rfl
    · rw [exec_eof_of_normal he (ev := ev) (by rw [htest]; exact hev), htest, sessionReset_of_normal he, raise_raise]
    · rw [exec_escbad_of_normal he hx hx', htest, sessionReset_of_normal he, raise_raise]
  case full =>
    have htest := fullTest_of_le hfull.ge
    rw [hfull] at htest
    refine ⟨fun b hb => ?_, ?_, ?_, fun x hx hx' => ?_⟩
    · rw [exec_lit_of_normal he hc hb, htest, sessionReset_of_normal he]
      rfl
    · rw [exec_escesc_of_normal he hc, htest, sessionReset_of_normal he, raise_raise]
      rfl
    · rw [exec_eof_of_normal he (ev := .errMalformed 0) (by rw [htest]; rfl), htest, sessionReset_sessionReset,
        sessionReset_of_normal he, raise_raise]
    · rw [exec_escbad_of_normal he hx hx', htest, sessionReset_sessionReset, sessionReset_of_normal he, raise_raise]

end Sys2Proof.Machine
end

section
/-! PROOFS. The Byte Escaper (40_byte_escaper.md): the cut of a range into runs and doubled pairs, ESC and SENDLOG with a
sink that accepts or fails, and the escaped bytes read back by the receiver. -/

namespace Sys2Proof.Machine

/-! ## The escaped bytes -/

theorem escape_length (m : Bytes) : (escape m).length = m.length + m.count escByte := by
  induction m with
  | nil => rfl
  | cons b t ih =>
    by_cases h : b = escByte
    · subst h
      simp only [escape_esc, List.length_cons, ih, List.count_cons_self]
      omega
    · simp only [escape_ne h, List.length_cons, ih, List.count_cons_of_ne h]
      omega

/-- Settles O11: by induction each escape byte adds one, and without one nothing is doubled. -/
theorem escapeAddsOneBytePerEscape : Obligations.EscapeAddsOneBytePerEscape :=
  ⟨escape_length, fun _ h => escape_of_not_mem (List.count_eq_zero.mp h)⟩

/-! ## The cut into runs and doubled pairs (rule R101) -/

/-- Induction along the cut of rule R101: a range is one run without an escape byte, or such a run, an escape byte, and a
range after it. -/
theorem bytes_run_induction {P : Bytes → Prop} (last : ∀ run, escByte ∉ run → P run)
    (pair : ∀ run t, escByte ∉ run → P t → P (run ++ escByte :: t)) (m : Bytes) : P m := by
  suffices h : ∀ run, escByte ∉ run → P (run ++ m) from h [] List.not_mem_nil
  induction m with
  | nil => simpa using last
  | cons b t ih =>
    intro run hrun
    by_cases hb : b = escByte
    · subst hb
      exact pair run t hrun (ih [] List.not_mem_nil)
    · rw [List.append_cons]
      exact ih (run ++ [b]) (by simp [hrun, Ne.symm hb])

theorem escBursts_of_not_mem {run : Bytes} (h : escByte ∉ run) : escBursts run = flushRun run :=
  escBurstsFrom_of_not_mem h []

theorem escBurstsFrom_append_esc {r : Bytes} (h : escByte ∉ r) (run t : Bytes) :
    escBurstsFrom run (r ++ escByte :: t) = flushRun (run ++ r) ++ [escByte, escByte] :: escBursts t := by
  induction r generalizing run with
  | nil => simp [escBursts]
  | cons b r ih =>
    obtain ⟨hb, hr⟩ : escByte ≠ b ∧ escByte ∉ r := by simpa using h
    rw [List.cons_append, escBurstsFrom_ne hb.symm, ih hr, List.append_assoc, List.singleton_append]

/-- The bursts up to the first escape byte are its run and its doubled pair; those after it are cut afresh. -/
theorem escBursts_append_esc {run : Bytes} (h : escByte ∉ run) (t : Bytes) :
    escBursts (run ++ escByte :: t) = flushRun run ++ [escByte, escByte] :: escBursts t :=
  escBurstsFrom_append_esc h [] t

theorem flushRun_of_ne_nil {run : Bytes} (h : run ≠ []) : flushRun run = [run] := if_neg h

theorem eq_of_mem_flushRun {run : Bytes} {b : Burst} (h : b ∈ flushRun run) : b = run := by
  unfold flushRun at h
  split at h <;> simp at h
  exact h

/-! ## The bursts of a concatenation (rule R104) -/

/-- A run before a non-escape byte joins its run, so it adds no burst. -/
theorem escBursts_length_run_append {run : Bytes} (h : escByte ∉ run) {y : Byte} (hy : y ≠ escByte) (b : Bytes) :
    (escBursts (run ++ y :: b)).length = (escBursts (y :: b)).length := by
  induction b using bytes_run_induction with
  | last r hr =>
    have hyr : escByte ∉ y :: r := by simp [hy.symm, hr]
    have hjoined : escByte ∉ run ++ y :: r := by simp [h, hy.symm, hr]
    simp [escBursts_of_not_mem hyr, escBursts_of_not_mem hjoined, flushRun_of_ne_nil]
  | pair r t hr _ =>
    have hyr : escByte ∉ y :: r := by simp [hy.symm, hr]
    have hjoined : escByte ∉ run ++ y :: r := by simp [h, hy.symm, hr]
    have hcut := escBursts_append_esc hyr t
    have hcut' := escBursts_append_esc hjoined t
    simp only [List.append_assoc, List.cons_append] at hcut hcut'
    simp [hcut, hcut', flushRun_of_ne_nil]

/-- Where a range is cut between two non-escape bytes, the run that stands there is cut in two. -/
theorem escBursts_length_cut (a b : Bytes) {x y : Byte} (hx : x ≠ escByte) (hy : y ≠ escByte) :
    (escBursts (a ++ [x])).length + (escBursts (y :: b)).length = (escBursts (a ++ [x] ++ y :: b)).length + 1 := by
  induction a using bytes_run_induction with
  | last run hrun =>
    have hrx : escByte ∉ run ++ [x] := by simp [hrun, hx.symm]
    rw [escBursts_length_run_append hrx hy, escBursts_of_not_mem hrx, flushRun_of_ne_nil (by simp), List.length_singleton,
      Nat.add_comm]
  | pair run t hrun ih =>
    simp only [List.append_assoc, List.cons_append] at ih ⊢
    simp only [escBursts_append_esc hrun, List.length_append, List.length_cons] at ih ⊢
    omega

/-- Settles O12: each byte is escaped on its own, and two neighbouring non-escape bytes stand in one run. -/
theorem escapeConcatenates : Obligations.EscapeConcatenates :=
  ⟨escape_append, fun a b _ _ hx hy => escBursts_length_cut a b hx hy⟩

/-! ## Runs are maximal -/

/-- Of two neighbouring bursts one holds an escape byte, so they are not both runs. -/
def NotBothRuns (a b : Burst) : Prop := escByte ∈ a ∨ escByte ∈ b

theorem eq_pair_of_mem_escBursts {m : Bytes} {b : Burst} (hb : b ∈ escBursts m) (he : escByte ∈ b) :
    b = [escByte, escByte] := by
  induction m using bytes_run_induction with
  | last run hrun =>
    rw [escBursts_of_not_mem hrun] at hb
    exact absurd (eq_of_mem_flushRun hb ▸ he) hrun
  | pair run t hrun ih =>
    rw [escBursts_append_esc hrun, List.mem_append, List.mem_cons] at hb
    obtain hb | hb | hb := hb
    · exact absurd (eq_of_mem_flushRun hb ▸ he) hrun
    · exact hb
    · exact ih hb

theorem isChain_pair_cons {bs : List Burst} (h : bs.IsChain NotBothRuns) :
    ([escByte, escByte] :: bs).IsChain NotBothRuns :=
  List.isChain_cons.mpr ⟨fun _ _ => .inl List.mem_cons_self, h⟩

theorem escBursts_isChain (m : Bytes) : (escBursts m).IsChain NotBothRuns := by
  have single : ∀ run : Bytes, (flushRun run).IsChain NotBothRuns := fun run => by
    unfold flushRun
    split <;> simp
  induction m using bytes_run_induction with
  | last run hrun =>
    rw [escBursts_of_not_mem hrun]
    exact single run
  | pair run t hrun ih =>
    rw [escBursts_append_esc hrun, List.isChain_append]
    refine ⟨single run, isChain_pair_cons ih, fun a _ b hb => ?_⟩
    obtain rfl : [escByte, escByte] = b := by simpa using hb
    exact .inr List.mem_cons_self

theorem countP_flushRun {run : Bytes} (h : escByte ∉ run) : (flushRun run).countP (fun b => decide (escByte ∈ b)) = 0 :=
  List.countP_eq_zero.mpr fun b hb => by simpa [eq_of_mem_flushRun hb] using h

theorem escBursts_countP (m : Bytes) : (escBursts m).countP (fun b => decide (escByte ∈ b)) = m.count escByte := by
  induction m using bytes_run_induction with
  | last run hrun => rw [escBursts_of_not_mem hrun, countP_flushRun hrun, List.count_eq_zero.mpr hrun]
  | pair run t hrun ih =>
    simp [escBursts_append_esc hrun, countP_flushRun hrun, List.count_eq_zero.mpr hrun, ih]

/-- Settles O13: each clause by induction along the cut. -/
theorem burstsAreTheMaximalRuns : Obligations.BurstsAreTheMaximalRuns := fun m =>
  ⟨escBursts_flatten m, fun b hb => ⟨escBursts_ne_nil m b hb, eq_pair_of_mem_escBursts hb⟩, escBursts_isChain m,
    escBursts_countP m⟩

/-! ## The sink accepts, or fails -/

theorem exec_esc_complete {s : State} {m : Bytes} {oks rest : List SinkAnswer} (hidle : s.tx = .idle)
    (hin : s.sinkAnswers = oks ++ rest) (hok : AllOk oks) (hlen : oks.length = (escBursts m).length) :
    exec (.esc m) s = .next { s with
      bursts := s.bursts ++ escBursts m, wire := s.wire ++ escape m, sinkAnswers := rest,
      txAnswers := s.txAnswers ++ [{ status := okStatus, result := none }] } := by
  rw [← escEmission_bursts] at hlen
  rw [exec_esc, startTx_idle hidle, emit_complete hidle hin hok hlen, escEmission_bursts, escBursts_flatten]

/-- Settles O15: the emission of ESC is accepted whole. -/
theorem escSendsTheEscapedRange : Obligations.EscSendsTheEscapedRange :=
  fun _ _ _ _ hidle hin hlen hok => exec_esc_complete hidle hin hok hlen

/-- The first failure after some answers `OK` ends the run at the burst it answers: what was done before it is the run that
waits there. -/
theorem runSink_fail {e : Emission} {oks rest : List SinkAnswer} {a : SinkAnswer} {burst : Burst} (hok : AllOk oks)
    (ha : a.status ≠ okStatus) (hb : e.bursts[oks.length]? = some burst) :
    runSink e (oks ++ a :: rest) =
      { issued := e.bursts.take (oks.length + 1),
        accepted := (e.bursts.take oks.length).flatten ++ burst.take a.delivered, left := rest,
        ended := .done a.status } := by
  obtain ⟨after, -, hrun⟩ := runSink_allOk hok hb
  obtain ⟨-, hresumed⟩ := runSink_append e oks (a :: rest)
  rw [hresumed burst after (by rw [hrun]), hrun, runSink_cons_fail (emission_next_ready _ _ _ _ _) ha]
  simp

/-- Handing over an emission of which the sink fails a burst: the operation ends with the sink's status. -/
theorem emit_fail {s : State} {use : TxUse} {e : Emission} {oks rest : List SinkAnswer} {a : SinkAnswer} {burst : Burst}
    (hidle : s.tx = .idle) (hin : s.sinkAnswers = oks ++ a :: rest) (hok : AllOk oks) (ha : a.status ≠ okStatus)
    (hb : e.bursts[oks.length]? = some burst) :
    s.emit use e = { s with
      bursts := s.bursts ++ e.bursts.take (oks.length + 1),
      wire := s.wire ++ (e.bursts.take oks.length).flatten ++ burst.take a.delivered, sinkAnswers := rest,
      txAnswers := s.txAnswers ++ [{ status := a.status, result := none }] } := by
  rw [State.emit, hin, runSink_fail hok ha hb, recordSink_done rfl, ← hidle, List.append_assoc]

/-- Settles O17: ESC and SENDLOG hand over an emission that has their bursts, and the failure ends it. -/
theorem sinkFailureEndsTheOperation : Obligations.SinkFailureEndsTheOperation := by
  intro s i bs oks a rest burst hi hidle hin hok ha hb
  obtain ⟨use, e, rfl, hexec⟩ : ∃ use e, e.bursts = bs ∧ exec i s = .next (s.emit use e) := by
    obtain ⟨m, rfl, rfl⟩ | ⟨level, m, rfl, rfl⟩ := hi
    · exact ⟨_, _, escEmission_bursts m, (exec_esc m s).trans (startTx_idle hidle _)⟩
    · exact ⟨_, _, logEmission_bursts level m, (exec_sendlog level m s).trans (startTx_idle hidle _)⟩
  rw [hexec, emit_fail hidle hin hok ha hb]

/-! ## The receiver reads the escaped bytes back (rule R105) -/

/-- The escaped bytes are the tokens of the single bytes, one after the other. -/
theorem escape_eq_flatten_tokens (m : Bytes) : escape m = (m.map fun b => escape [b]).flatten := by
  induction m with
  | nil => rfl
  | cons b t ih => rw [List.map_cons, List.flatten_cons, ← ih, ← escape_append, List.singleton_append]

theorem escape_singleton_cases (b : Byte) : escape [b] = [escByte, escByte] ∨ b ≠ escByte ∧ escape [b] = [b] := by
  by_cases h : b = escByte
  · exact .inl (h ▸ escape_esc [])
  · exact .inr ⟨h, escape_ne h []⟩

/-- Escaped bytes fed at a token boundary, with room for what they stand for, raise no event but `NONE`. -/
theorem rxChunk_escape_rxEvents {m : Bytes} {s t : State} (he : s.rxEsc = false)
    (hroom : s.rxCursor + m.length ≤ s.cfg.capacity) (h : rxChunk (escape m) s = .ok t) :
    t.rxEvents = s.rxEvents ++ List.replicate (escape m).length .none := by
  induction m generalizing s with
  | nil => cases h; simp
  | cons b m ih =>
    rw [List.length_cons] at hroom
    have hcur : s.rxCursor < s.cfg.capacity := by omega
    have hrest : s.rxCursor + 1 + m.length ≤ s.cfg.capacity := by omega
    by_cases hb : b = escByte
    · subst hb
      rw [escape_esc, rxChunk_cons_ok (rxByte_normal_esc he hcur),
        rxChunk_cons_ok (rxByte_escaping_esc (s := (s.setEsc true).raise .none) rfl hcur)] at h
      simp [ih (by simp) (by simpa using hrest) h, List.replicate_succ]
    · rw [escape_ne hb, rxChunk_cons_ok (rxByte_normal_lit he hcur hb)] at h
      simp [ih (by simpa using he) (by simpa using hrest) h, hb, List.replicate_succ]

/-- PARSE of a held frame reads held bytes alone, so it answers an event. -/
theorem Holds.parse_ok {s : State} {f : Bytes} (h : Holds s f) : ∃ ev, parse s = .ok ev := by
  by_cases hshort : s.rxCursor < minFrameLen
  · exact ⟨_, if_pos hshort⟩
  have hlen : 8 ≤ f.length := h.1 ▸ Nat.not_lt.mp hshort
  have hfield : (f.take csumFieldLen).length = csumFieldLen := List.length_take_of_le (le_trans (by decide) hlen)
  have hsplit : Holds s (f.take csumFieldLen ++ f.drop csumFieldLen) := by rwa [List.take_append_drop]
  have hbody := hsplit.bufRange
  rw [hfield] at hbody
  simp only [parse, if_neg hshort, h.bufRead (k := 0) (by omega), h.bufRead (k := 1) (by omega),
    h.bufRead (k := 2) (by omega), h.bufRead (k := 3) (by omega), h.bufRead (k := 5) (by omega),
    h.bufRead (k := 6) (by omega), h.bufRead (k := 7) (by omega), hbody, bind, Except.bind]
  cases unhex4 f[0] f[1] f[2] f[3] with
  | none => exact ⟨_, rfl⟩
  | some sum =>
    by_cases hsum : sum = csum csumSeed (f.drop csumFieldLen)
    · exact ⟨_, if_pos hsum⟩
    · exact ⟨_, if_neg hsum⟩

/-- The hard terminator at a token boundary, with room for its escape byte: PARSE of what the receiver holds, then the
session reset (rules R144, R147). -/
theorem rxChunk_hardTerminator {s : State} {ev : RxEvent} (he : s.rxEsc = false) (hr : s.rxCursor < s.cfg.capacity)
    (hparse : parse s = .ok ev) : rxChunk hardTerminator s = .ok ((s.sessionReset.raise .none).raise ev) := by
  have hsame : parse ((s.setEsc true).raise .none) = parse s := parse_congr rfl rfl rfl
  rw [hardTerminator, rxChunk_cons_ok (rxByte_normal_esc he hr), rxChunk_one, rxByte_escaping_term rfl, hsame, hparse]
  rfl

/-- Settles O32: byte by byte a receiver with room holds what was escaped, and the terminator runs PARSE on that. -/
theorem escapedBytesRoundTrip : Obligations.EscapedBytesRoundTrip := by
  refine ⟨fun m => ⟨_, escape_eq_flatten_tokens m, fun t ht => ?tokens⟩, fun s m hs hroom => ?received⟩
  case tokens =>
    obtain ⟨b, -, rfl⟩ := List.mem_map.mp ht
    exact (escape_singleton_cases b).imp_right fun h => ⟨b, h⟩
  case received =>
    obtain ⟨he, hcur, -⟩ := hs
    have hempty : Holds s [] := ⟨hcur, Nat.zero_le _, by simp⟩
    obtain ⟨t, hchunk, hcfg, hte, hheld⟩ := rxChunk_escape m he hempty (by simpa using hroom)
    rw [List.nil_append] at hheld
    have hevents := rxChunk_escape_rxEvents he (by omega) hchunk
    refine ⟨t, hchunk, hte, hheld.1, hheld, hevents, fun hlt => ?terminated⟩
    obtain ⟨ev, hparse⟩ := hheld.parse_ok
    have htroom : t.rxCursor < t.cfg.capacity := by rw [hheld.1, hcfg]; exact hlt
    refine ⟨ev, hparse, ?_, hheld.2.2⟩
    rw [rxChunk_append, hchunk]
    exact rxChunk_hardTerminator hte htroom hparse

end Sys2Proof.Machine
end

section
/-! PROOFS. The Checksum Engine (41_checksum_engine.md): the checksum as the sum of the bytes, and the CSUM operation. -/

namespace Sys2Proof.Machine

/-- One byte into the accumulator (rule R110). -/
theorem add_setWidth_toNat (sd : Half) (b : Byte) : (sd + b.setWidth 16).toNat = (sd.toNat + b.toNat) % 65536 := by
  have hb : (b.setWidth 16).toNat = b.toNat := BitVec.toNat_setWidth_of_le (by decide)
  rw [BitVec.toNat_add, hb]

/-- Rule R110 in closed form: the accumulator of every seed is the seed plus the bytes it has taken. -/
theorem csum_toNat (sd : Half) (m : Bytes) : (csum sd m).toNat = (sd.toNat + (m.map BitVec.toNat).sum) % 65536 := by
  induction m generalizing sd with
  | nil => exact (Nat.mod_eq_of_lt sd.isLt).symm
  | cons b t ih =>
    rw [csum_cons, ih, add_setWidth_toNat, Nat.mod_add_mod, List.map_cons, List.sum_cons, Nat.add_assoc]

/-- Settles O9: the closed form, proved by induction on the bytes with the seed general. -/
theorem checksumIsTheByteSum : Obligations.ChecksumIsTheByteSum := csum_toNat

theorem csum_eq_of_sum_eq (sd : Half) {a b : Bytes} (h : (a.map BitVec.toNat).sum = (b.map BitVec.toNat).sum) :
    csum sd a = csum sd b :=
  BitVec.eq_of_toNat_eq (by rw [csum_toNat, csum_toNat, h])

/-- Rule R114: a zero byte is invisible. -/
theorem csum_zero_cons (sd : Half) (m : Bytes) : csum sd (0x00#8 :: m) = csum sd m := by
  rw [csum_cons, BitVec.setWidth_zero, BitVec.add_zero]

theorem csum_add_seed (sd d : Half) (m : Bytes) : csum (sd + d) m = csum sd m + d := by
  rw [csum_eq_add (sd + d), csum_eq_add sd, add_right_comm]

/-- Settles O10: chaining is the fold over a concatenation; equal sums give equal closed forms; the seed is one summand. -/
theorem checksumIsIncremental : Obligations.ChecksumIsIncremental :=
  ⟨csum_append, csum_nil, fun sd _ _ h => csum_eq_of_sum_eq sd h,
    fun sd a b => by rw [csum_append, csum_zero_cons, ← csum_append], csum_add_seed⟩

/-- CSUM on an idle TX path answers at once (rule R112). -/
theorem exec_csum_idle {s : State} (hidle : s.tx = .idle) (sd : Half) (m : Bytes) :
    exec (.csum sd m) s = .next (s.answer okStatus (some (csum sd m))) :=
  (exec_csum sd m s).trans (startTx_idle hidle _)

/-- Settles O14: op 0 decodes to CSUM, and CSUM adds its answer alone. -/
theorem csumAnswersTheChecksum : Obligations.CsumAnswersTheChecksum :=
  ⟨fun sd lv m => decodeTx_txWord_csum sd lv m, fun _ sd m hidle => exec_csum_idle hidle sd m⟩

end Sys2Proof.Machine
end

section
/-! PROOFS. The Frame Builder (42_frame_builder.md): the log frame from SENDLOG to the receiver that accepts it, and the
reserved level. -/

namespace Sys2Proof.Machine

/-! ## The log frame at a receiver (rule R127) -/

theorem logFrame_length (level : Level) (m : Bytes) : (logFrame level m).length = 13 + m.length := by
  rw [logFrame, List.length_append, logHeader_length, hdrLen]

/-- The message stands in the frame behind the 13 bytes of the header (rule R73). -/
theorem logFrame_getElem_message (level : Level) {m : Bytes} {k : Nat} (hk : k < m.length) :
    (logFrame level m)[13 + k]'(by rw [logFrame_length]; omega) = m[k] := by
  have hhdr : (logHeader level m).length = 13 := logHeader_length level m
  simp [logFrame, List.getElem_append_right, hhdr]

/-- PARSE accepts a log frame: its header covers the message that follows, and "OG" is no sequence value. -/
theorem parse_logFrame {s : State} {level : Level} {m : Bytes} (h : Holds s (logFrame level m)) :
    parse s = .ok (.frameOk (13 + m.length) 0x4C#8 false 0x00#8) :=
  (parse_logHeader_append h).trans (congrArg Except.ok (if_pos rfl))

/-- A log frame fed whole to a receiver at reset with room for it: accepted at its last byte, the receiver at reset again,
and every byte of the frame still readable (rules R127, R39). -/
theorem rxChunk_logFrame {r : State} (level : Level) (m : Bytes) (hr : RxAtReset r)
    (hroom : 14 + m.length ≤ r.cfg.capacity) :
    ∃ u, rxChunk (wireFrame (logFrame level m)) r = .ok u ∧ u.rxEsc = false ∧ u.rxCursor = 0 ∧
      u.rxEvents = r.rxEvents ++ List.replicate ((wireFrame (logFrame level m)).length - 1) .none ++
        [.frameOk (13 + m.length) 0x4C#8 false 0x00#8] ∧
      ∀ k (h : k < (logFrame level m).length), u.hostRead k = some (logFrame level m)[k] := by
  have hlt : (logFrame level m).length < r.cfg.capacity := by rw [logFrame_length]; omega
  obtain ⟨t, -, -, -, hheld, hevents, hterm⟩ := escapedBytesRoundTrip.2 r (logFrame level m) hr hlt.le
  obtain ⟨ev, hparse, hchunk, hread⟩ := hterm hlt
  obtain rfl : _ = ev := Except.ok.inj ((parse_logFrame hheld).symm.trans hparse)
  have hnones : (wireFrame (logFrame level m)).length - 1 = (escape (logFrame level m)).length + 1 := by
    simp [wireFrame, hardTerminator]
  refine ⟨_, hchunk, rfl, rfl, ?_, hread⟩
  rw [hnones, List.replicate_succ', raise_rxEvents, raise_rxEvents, sessionReset_rxEvents, hevents]
  simp only [List.append_assoc]

/-- Settles O33: the terminator runs PARSE on exactly the log frame, and PARSE accepts it. -/
theorem logFrameIsReceived : Obligations.LogFrameIsReceived := by
  intro s level m hs hroom
  obtain ⟨t, hchunk, hesc, hcur, hevents, -⟩ := rxChunk_logFrame level m hs hroom
  exact ⟨t, hchunk, hesc, hcur, hevents⟩

/-! ## From SENDLOG to the receiver -/

theorem logBursts_length (level : Level) (m : Bytes) : (logBursts level m).length = (escBursts m).length + 2 := by
  simp [logBursts_eq]

/-- The bursts of SENDLOG are together the wire form of the log frame (rule R124). -/
theorem logBursts_flatten_eq_wireFrame (level : Level) (m : Bytes) :
    (logBursts level m).flatten = wireFrame (logFrame level m) := by
  rw [logBursts_flatten, logFrame, wireFrame_logHeader_append, List.append_assoc]

/-- A sink with an `OK` for every burst gets the log frame in its wire form. -/
theorem exec_sendlog_wire {s : State} (level : Level) (m : Bytes) (hidle : s.tx = .idle) (hok : AllOk s.sinkAnswers)
    (hlen : (logBursts level m).length ≤ s.sinkAnswers.length) :
    ∃ t, exec (.sendlog level m) s = .next t ∧ t.wire = s.wire ++ wireFrame (logFrame level m) := by
  have hsplit := (List.take_append_drop (logBursts level m).length s.sinkAnswers).symm
  have htake : AllOk (s.sinkAnswers.take (logBursts level m).length) := fun a ha => hok a (List.mem_of_mem_take ha)
  refine ⟨_, exec_sendlog_complete level m hidle hsplit htake (List.length_take_of_le hlen), ?_⟩
  rw [logBursts_flatten_eq_wireFrame]

/-- Settles O34: the wire form of the log frame goes out, and a receiver with room takes it. -/
theorem sentLogFrameIsAccepted : Obligations.SentLogFrameIsAccepted := by
  intro s r level m hidle hok hlen hr hroom
  obtain ⟨t, hexec, hwire⟩ := exec_sendlog_wire level m hidle hok (by rwa [logBursts_length])
  obtain ⟨u, hchunk, -, -, hevents, hread⟩ := rxChunk_logFrame level m hr hroom
  refine ⟨t, _, u, hexec, hwire, hchunk, by simp [State.rxEvent, hevents], fun k hk => ?_⟩
  rw [hread (13 + k) (by rw [logFrame_length]; omega), logFrame_getElem_message level hk]

/-! ## The reserved level (rule R126) -/

/-- Settles O20: level 3 decodes to the reserved operation, which adds its answer alone. -/
theorem reservedLevelIsRefused : Obligations.ReservedLevelIsRefused :=
  ⟨decodeTx_txWord_sendlogRsvd, fun _ m hidle => exec_sendlogRsvd_idle hidle m⟩

end Sys2Proof.Machine
end

section
/-! PROOFS. The Stream Reassembler (43_stream_reassembler.md): the cases of RXBYTE, its event, the frame that fills the
buffer, and receivers that no later byte can tell apart. -/

namespace Sys2Proof.Machine

/-! ## RXINIT and the cases of RXBYTE -/

/-- Settles O26: every word with init 1 decodes to RXINIT, which is the session reset with the event `NONE`. -/
theorem rxinitResetsTheSession : Obligations.RxinitResetsTheSession := ⟨decodeRx_rxWord_rxinit, exec_rxinit⟩

theorem exec_rxbyte_ok {b : Byte} {s t : State} (h : rxByte b s = .ok t) : exec (.rxbyte b) s = .next t := by
  rw [exec_rxbyte, h, rxOutcome_ok]

theorem rxByte_of_exec {b : Byte} {s t : State} (h : exec (.rxbyte b) s = .next t) : rxByte b s = .ok t :=
  rxOutcome_next_iff.mp h

/-- Settles O27: the equation of each case; at a full buffer the cursor before the reset is `CAPACITY`. -/
theorem rxbyteCases : Obligations.RxbyteCases := by
  intro s b
  refine ⟨fun he hr hb => ?normalEsc, fun he hr hb => ?normalLit, fun he hfull hb => ?fullEsc,
    fun he hfull hc hb => ?fullLit, fun he hr hb => ?escapingEsc, fun he hb ev hev => ?frameEnd,
    fun he hb hb' => exec_rxbyte_ok (rxByte_escaping_bad he hb hb')⟩
  case normalEsc =>
    subst hb
    exact exec_rxbyte_ok (rxByte_normal_esc he hr)
  case normalLit => exact exec_rxbyte_ok (rxByte_normal_lit he hr hb)
  case fullEsc =>
    subst hb
    rw [exec_rxbyte_ok (rxByte_full_esc he hfull.ge), hfull]
    rfl
  case fullLit =>
    rw [exec_rxbyte_ok (rxByte_full_lit he hfull.ge hc hb), hfull, sessionReset_of_normal he]
    rfl
  case escapingEsc =>
    subst hb
    exact exec_rxbyte_ok (rxByte_escaping_esc he hr)
  case frameEnd =>
    subst hb
    exact exec_rxbyte_ok (by rw [rxByte_escaping_term he, hev]; rfl)

/-! ## The event of an RXBYTE -/

/-- Non-hex sequence digits give the sequence value 0 (rule R165). -/
theorem seqFields_of_not_valid {q6 q7 : Byte} (h : (seqFields q6 q7).1 = false) : (seqFields q6 q7).2 = 0x00#8 := by
  cases hv : unhex2 q6 q7 with
  | none => simp [seqFields, hv]
  | some v => simp [seqFields, hv] at h

/-- The events of PARSE on either side of 8 bytes, all with the cursor as their length (rules R161 to R165). -/
theorem parse_event_cases {s : State} {ev : RxEvent} (h : parse s = .ok ev) :
    (s.rxCursor < 8 ∧ ev = .errMalformed s.rxCursor) ∨
    (8 ≤ s.rxCursor ∧ (ev = .errHexdigit s.rxCursor ∨ ev = .errChecksum s.rxCursor ∨
      ∃ ty v q, ev = .frameOk s.rxCursor ty v q ∧ (v = false → q = 0x00#8))) := by
  obtain ⟨hshort, rfl⟩ | ⟨hlong, c0, c1, c2, c3, -, -, -, -, ⟨-, rfl⟩ | ⟨sum, body, -, -, ⟨-, rfl⟩ |
    ⟨-, ty, q6, q7, -, -, -, rfl⟩⟩⟩ := parse_ok_cases h
  · exact .inl ⟨hshort, rfl⟩
  · exact .inr ⟨hlong, .inl rfl⟩
  · exact .inr ⟨hlong, .inr (.inl rfl)⟩
  · exact .inr ⟨hlong, .inr (.inr ⟨ty, _, _, rfl, seqFields_of_not_valid⟩)⟩

/-- The cases of `rxByte_ok_cases` in `NORMAL`. -/
theorem rxByte_normal_cases {b : Byte} {s t : State} (he : s.rxEsc = false) (h : rxByte b s = .ok t) :
    (b = escByte ∧ t = (s.fullTest.2.setEsc true).raise s.fullTest.1) ∨
    (b ≠ escByte ∧ t = (s.fullTest.2.push b).raise s.fullTest.1) := by
  obtain ⟨-, hb, ht⟩ | ⟨-, hb, -, ht⟩ | ⟨he', -⟩ | ⟨he', -⟩ | ⟨he', -⟩ := rxByte_ok_cases h
  · exact .inl ⟨hb, ht⟩
  · exact .inr ⟨hb, ht⟩
  all_goals simp [he] at he'

/-- The cases of `rxByte_ok_cases` in `ESCAPING`: the escape byte, or an end of the frame with its event. -/
theorem rxByte_escaping_cases {b : Byte} {s t : State} (he : s.rxEsc = true) (h : rxByte b s = .ok t) :
    (b = escByte ∧ t = ((s.setEsc false).push escByte).raise .none) ∨
    (b = termByte ∧ ∃ ev, parse s = .ok ev ∧ t = s.sessionReset.raise ev) ∨
    (b ≠ escByte ∧ b ≠ termByte ∧ t = s.sessionReset.raise (.errProtocol s.rxCursor b)) := by
  obtain ⟨he', -⟩ | ⟨he', -⟩ | ⟨-, hb, -, ht⟩ | ⟨-, hend⟩ | ⟨-, hbad⟩ := rxByte_ok_cases h
  · simp [he] at he'
  · simp [he] at he'
  · exact .inl ⟨hb, ht⟩
  · exact .inr (.inl hend)
  · exact .inr (.inr hbad)

/-- In `NORMAL` the event is the one of the full test. -/
theorem rxByte_normal_event {b : Byte} {s t : State} (he : s.rxEsc = false) (h : rxByte b s = .ok t) :
    t.rxEvents = s.rxEvents ++ [s.fullTest.1] := by
  obtain ⟨-, rfl⟩ | ⟨-, rfl⟩ := rxByte_normal_cases he h <;> simp

/-- Settles O40: the full test decides the event in `NORMAL`, the byte in `ESCAPING`, and PARSE at the frame end. -/
theorem eventFields : Obligations.EventFields := by
  intro s t b hcur h
  have hbyte := rxByte_of_exec h
  cases he : s.rxEsc with
  | false =>
    have hev := rxByte_normal_event he hbyte
    obtain ⟨hroom, htest⟩ | ⟨hfull, htest⟩ := fullTest_cases s <;> rw [htest] at hev
    · exact ⟨_, hev, by simp [hroom, hroom.ne]⟩
    · exact ⟨_, hev, by simp [hfull.antisymm' hcur, RxEvent.lenField]⟩
  | true =>
    have hne : termByte ≠ escByte := escByte_ne_termByte.symm
    obtain ⟨hb, rfl⟩ | ⟨hb, ev, hparse, rfl⟩ | ⟨hb, hb', rfl⟩ := rxByte_escaping_cases he hbyte
    · exact ⟨.none, rfl, by simp [hb, escByte_ne_termByte]⟩
    · obtain ⟨hlen, rfl⟩ | ⟨hlen, rfl | rfl | ⟨ty, v, q, rfl, hq⟩⟩ := parse_event_cases hparse
      · exact ⟨_, rfl, by simp [RxEvent.lenField, hb, hne, hlen]⟩
      · exact ⟨_, rfl, by simp [RxEvent.lenField, hb, hne, hlen]⟩
      · exact ⟨_, rfl, by simp [RxEvent.lenField, hb, hne, hlen]⟩
      · have hvalue : ∀ n ty' v' q', RxEvent.frameOk s.rxCursor ty v q = .frameOk n ty' v' q' → v' = false →
            q' = 0x00#8 := by
          rintro _ _ _ _ ⟨⟩
          exact hq
        exact ⟨_, rfl, by simpa [RxEvent.lenField, hb, hne, hlen] using hvalue⟩
    · exact ⟨_, rfl, by simp [RxEvent.lenField, hb, hb']⟩

/-! ## A frame that fills the buffer (rule R152) -/

/-- Settles O36: the frame's own bytes fill the buffer, and the terminator is the EOF token on a full buffer. -/
theorem fullLengthFrameIsLost : Obligations.FullLengthFrameIsLost := by
  intro s f hs hlen
  obtain ⟨he, hcur, hc⟩ := hs
  have hempty : Holds s [] := ⟨hcur, Nat.zero_le _, by simp⟩
  obtain ⟨t, hchunk, hcfg, hte, hheld⟩ := rxChunk_escape f he hempty (by simp [hlen])
  have hevents := rxChunk_escape_rxEvents he (by omega) hchunk
  have hfull : t.rxCursor = t.cfg.capacity := by rw [hheld.1, hcfg, List.nil_append, hlen]
  obtain ⟨-, -, heof, -⟩ := (tokenEffects t hte).2 hfull (hcfg ▸ hc)
  have hterm := rxOutcome_next_iff.mp ((exec_eof t).symm.trans heof)
  rw [wireFrame, rxChunk_append, hchunk]
  exact ⟨_, hterm, hte, rfl, by rw [hevents, hcfg]⟩

/-! ## What an end or an abort of a frame leaves -/

theorem rxByte_escaping_resets {b : Byte} {s t : State} (he : s.rxEsc = true) (hb : b ≠ escByte)
    (h : rxByte b s = .ok t) : t.rxEsc = false ∧ t.rxCursor = 0 := by
  obtain ⟨hb', -⟩ | ⟨-, ev, -, rfl⟩ | ⟨-, -, rfl⟩ := rxByte_escaping_cases he h
  · exact absurd hb' hb
  · exact ⟨rfl, rfl⟩
  · exact ⟨rfl, rfl⟩

/-- After an overflow the byte is handled from the reset session (rule R143). -/
theorem rxByte_full_restarts {b : Byte} {s t : State} (he : s.rxEsc = false) (hfull : s.cfg.capacity ≤ s.rxCursor)
    (h : rxByte b s = .ok t) :
    (b = escByte → t.rxEsc = true ∧ t.rxCursor = 0) ∧ (b ≠ escByte → t.rxEsc = false ∧ t.rxCursor = 1) := by
  obtain ⟨hb, rfl⟩ | ⟨hb, rfl⟩ := rxByte_normal_cases he h <;> simp [hb, fullTest_of_le hfull]

/-! ## Receivers that no later byte can tell apart (rule R154) -/

section
variable {s s' : State}

theorem SameFrame.sessionReset (h : SameFrame s s') : SameFrame s.sessionReset s'.sessionReset := by
  obtain ⟨hcap, -⟩ := h
  exact ⟨hcap, rfl, rfl, by simp⟩

theorem SameFrame.setEsc (h : SameFrame s s') (e : Bool) : SameFrame (s.setEsc e) (s'.setEsc e) := by
  obtain ⟨hcap, -, hcur, hread⟩ := h
  exact ⟨hcap, rfl, hcur, hread⟩

/-- The byte stored is the only new one below the cursor. -/
theorem SameFrame.push (h : SameFrame s s') (v : Byte) : SameFrame (s.push v) (s'.push v) := by
  obtain ⟨hcap, hesc, hcur, hread⟩ := h
  refine ⟨hcap, hesc, congrArg (· + 1) hcur, fun i hi => ?_⟩
  rw [push_buf, push_buf, read_write, read_write, hcur]
  by_cases hi' : i = s.rxCursor
  · rw [if_pos hi', if_pos hi']
  · rw [if_neg hi', if_neg hi', hread i (by simp at hi; omega)]

theorem SameFrame.raise (h : SameFrame s s') (ev : RxEvent) : SameFrame (s.raise ev) (s'.raise ev) := h

theorem SameFrame.fullTest (h : SameFrame s s') :
    s'.fullTest.1 = s.fullTest.1 ∧ SameFrame s.fullTest.2 s'.fullTest.2 := by
  have ⟨hcap, _, hcur, _⟩ := h
  obtain ⟨hroom, htest⟩ | ⟨hfull, htest⟩ := fullTest_cases s
  · rw [htest, fullTest_of_lt (by rwa [hcur, hcap])]
    exact ⟨rfl, h⟩
  · rw [htest, fullTest_of_le (by rwa [hcur, hcap]), hcur]
    exact ⟨rfl, h.sessionReset⟩

theorem SameFrame.bufRead (h : SameFrame s s') {i : Nat} (hi : i < s.rxCursor) : s'.bufRead i = s.bufRead i := by
  obtain ⟨hcap, -, -, hread⟩ := h
  simp only [State.bufRead, hcap, hread i hi]

theorem SameFrame.bufRange (h : SameFrame s s') {i k : Nat} (hk : i + k ≤ s.rxCursor) :
    s'.bufRange i k = s.bufRange i k := by
  induction k generalizing i with
  | zero => rfl
  | succ k ih => rw [State.bufRange, State.bufRange, h.bufRead (by omega), ih (by omega)]

/-- PARSE reads below the cursor alone (rule R160). -/
theorem SameFrame.parse_eq (h : SameFrame s s') : parse s' = parse s := by
  have ⟨_, _, hcur, _⟩ := h
  by_cases hshort : s.rxCursor < minFrameLen
  · simp only [parse, hcur, if_pos hshort]
  · have hlen : 8 ≤ s.rxCursor := Nat.not_lt.mp hshort
    have hfield : csumFieldLen ≤ s.rxCursor := le_trans (by decide) hlen
    simp only [parse, hcur, h.bufRead (i := 0) (by omega), h.bufRead (i := 1) (by omega),
      h.bufRead (i := 2) (by omega), h.bufRead (i := 3) (by omega), h.bufRead (i := 5) (by omega),
      h.bufRead (i := 6) (by omega), h.bufRead (i := 7) (by omega),
      h.bufRange (i := csumFieldLen) (k := s.rxCursor - csumFieldLen) (by omega)]

theorem rxByte_esc_of_normal (he : s.rxEsc = false) :
    rxByte escByte s = .ok ((s.fullTest.2.setEsc true).raise s.fullTest.1) := by
  simp [rxByte, he, rxNormal]

theorem rxByte_lit_of_normal {b : Byte} (he : s.rxEsc = false)
    (hr : s.fullTest.2.rxCursor < s.fullTest.2.cfg.capacity) (hb : b ≠ escByte) :
    rxByte b s = .ok ((s.fullTest.2.push b).raise s.fullTest.1) := by
  simp [rxByte, he, rxNormal, hb, append_of_lt hr, Except.map]

/-- One RXBYTE takes receivers that agree to receivers that agree, with the same event. -/
theorem SameFrame.rxByte_ok {b : Byte} {t : State} (h : SameFrame s s') (ht : rxByte b s = .ok t) :
    ∃ t' ev, rxByte b s' = .ok t' ∧ SameFrame t t' ∧ t.rxEvents = s.rxEvents ++ [ev] ∧
      t'.rxEvents = s'.rxEvents ++ [ev] := by
  have ⟨hcap, hesc, hcur, _⟩ := h
  obtain ⟨hevent, htest⟩ := h.fullTest
  have ⟨_, _, hcur', _⟩ := htest
  obtain ⟨he, rfl, rfl⟩ | ⟨he, hb, hr, rfl⟩ | ⟨he, rfl, hr, rfl⟩ | ⟨he, rfl, ev, hev, rfl⟩ | ⟨he, hb, hb', rfl⟩ :=
    rxByte_ok_cases ht <;> rw [← hesc] at he
  · have hopen := rxByte_esc_of_normal he
    rw [hevent] at hopen
    exact ⟨_, s.fullTest.1, hopen, (htest.setEsc true).raise _, by simp, by simp⟩
  · have hstored := rxByte_lit_of_normal he (by rwa [hcur', fullTest_cfg, hcap]) hb
    rw [hevent] at hstored
    exact ⟨_, s.fullTest.1, hstored, (htest.push b).raise _, by simp, by simp⟩
  · exact ⟨_, _, rxByte_escaping_esc he (by rwa [hcur, hcap]), ((h.setEsc false).push escByte).raise _, rfl, rfl⟩
  · exact ⟨_, _, by rw [rxByte_escaping_term he, h.parse_eq, hev]; rfl, h.sessionReset.raise ev, rfl, rfl⟩
  · exact ⟨_, _, rxByte_escaping_bad he hb hb', h.sessionReset.raise _, rfl, by rw [hcur]; rfl⟩

/-- Byte by byte, receivers that agree go on alike. -/
theorem SameFrame.rxChunk_ok {bs : Bytes} {t : State} (h : SameFrame s s') (ht : rxChunk bs s = .ok t) :
    ∃ t' evs, rxChunk bs s' = .ok t' ∧ SameFrame t t' ∧ t.rxEvents = s.rxEvents ++ evs ∧
      t'.rxEvents = s'.rxEvents ++ evs := by
  induction bs generalizing s s' with
  | nil =>
    cases ht
    exact ⟨s', [], rfl, h, by simp, by simp⟩
  | cons b bs ih =>
    obtain ⟨u, hu, ht⟩ := rxChunk_cons_ok_iff.mp ht
    obtain ⟨u', ev, hu', hframe, hev, hev'⟩ := h.rxByte_ok hu
    obtain ⟨t', evs, ht', hframe', hevs, hevs'⟩ := ih hframe ht
    exact ⟨t', ev :: evs, (rxChunk_cons_ok hu').trans ht', hframe', by simp [hevs, hev], by simp [hevs', hev']⟩

end

/-- Settles O37: the ends of a frame by the cases of RXBYTE; the rest by the relation `SameFrame`, kept byte by byte. -/
theorem resetForgetsHistory : Obligations.ResetForgetsHistory := by
  refine ⟨fun s t b he hb h => rxByte_escaping_resets he hb (rxByte_of_exec h), fun s t h => ?rxinit,
    fun s t b he hfull h => rxByte_full_restarts he hfull (rxByte_of_exec h), fun s s' bs t h _ ht => h.rxChunk_ok ht⟩
  case rxinit =>
    cases h
    exact ⟨rfl, rfl⟩

end Sys2Proof.Machine
end

section
/-! PROOFS. Message Parse and Validate (44_parse_validate.md): PARSE as an operation nothing issues, its verdict on a held
frame as a function of the frame's bytes, and the set of frames a receiver accepts. -/

namespace Sys2Proof.Machine

/-! ## PARSE is no operation the environment can issue -/

theorem encode_eq_none_iff {i : Instr} : encode i = none ↔ i = .parse := by
  cases i with
  | parse => exact iff_of_true rfl rfl
  | lit | escesc | eof | escbad | csum | esc | sendlog | sendlogRsvd | txRsvd | rxbyte | rxinit => simp [encode]

/-- What decodes has an encoding, and PARSE has none (rule R160). -/
theorem decode_ne_parse (p : Packet) : decode p ≠ .ok .parse := by
  intro h
  obtain ⟨q, hq, -⟩ := decodedOperationsReencode p .parse h
  rw [encode_eq_none_iff.mpr rfl] at hq
  cases hq

/-- What the receiver reads next from a stream is what some packet decodes to: a token, or RXBYTE (rule R88). -/
theorem cutStream_decodes (rxEsc : Bool) (b : Byte) (bs : Bytes) : ∃ p, decode p = .ok (cutStream rxEsc b bs).1 := by
  have hbyte : ∃ p, decode p = .ok (.rxbyte b) := ⟨.rxc (rxWord 0#1 b), by simp⟩
  unfold cutStream
  split
  · exact hbyte
  · split
    · obtain ⟨c, hc, -, rfl⟩ | ⟨x, -, rfl⟩ := decodeToken_ok_cases ‹_›
      · exact ⟨_, decode_token_lit hc⟩
      · exact ⟨_, decode_token_escaped x⟩
    · exact hbyte

/-- Every operation a fetch hands to a step is what some packet decodes to. -/
theorem fetch_op_decodes {s t : State} {i : Instr} (h : fetch s = .op i t) : ∃ p, decode p = .ok i := by
  unfold fetch at h
  split at h <;> cases h
  · exact ⟨_, decode_txc _ _⟩
  · exact ⟨_, decode_rxc _⟩
  · exact cutStream_decodes _ _ _

/-- Settles O2: whatever a table word or a fetch gives is what a packet decodes to, and so has an encoding. -/
theorem parseCannotBeIssued : Obligations.ParseCannotBeIssued := by
  refine ⟨fun i => encode_eq_none_iff, decode_ne_parse, fun nbits w h => ?tableWord, fun s t h => ?fetched⟩
  case tableWord =>
    obtain ⟨p, -, hp⟩ := decodeTableWord_eq_some_iff.mp h
    exact decode_ne_parse p hp
  case fetched =>
    obtain ⟨p, hp⟩ := fetch_op_decodes h
    exact decode_ne_parse p hp

/-! ## The verdict on a held frame -/

/-- The event of PARSE as a function of the unescaped frame: length, then hex digits, then checksum, then type and sequence
(rules R161 to R165). `Holds.parse_eq` ties it to `parse`. -/
def frameEvent (f : Bytes) : RxEvent :=
  match f with
  | c0 :: c1 :: c2 :: c3 :: c4 :: ty :: q6 :: q7 :: tail =>
    match unhex4 c0 c1 c2 c3 with
    | none => .errHexdigit f.length
    | some sum =>
      if sum = csum csumSeed (c4 :: ty :: q6 :: q7 :: tail) then
        .frameOk f.length ty (seqFields q6 q7).1 (seqFields q6 q7).2
      else .errChecksum f.length
  | _ => .errMalformed f.length

/-- A frame of 8 bytes or more has the fields PARSE reads. -/
theorem exists_fields_of_length {f : Bytes} (h : 8 ≤ f.length) :
    ∃ c0 c1 c2 c3 c4 ty q6 q7 tail, f = c0 :: c1 :: c2 :: c3 :: c4 :: ty :: q6 :: q7 :: tail := by
  match f, h with
  | c0 :: c1 :: c2 :: c3 :: c4 :: ty :: q6 :: q7 :: tail, _ => exact ⟨c0, c1, c2, c3, c4, ty, q6, q7, tail, rfl⟩

theorem frameEvent_of_short {f : Bytes} (h : f.length < 8) : frameEvent f = .errMalformed f.length := by
  unfold frameEvent
  split
  · simp at h; omega
  · rfl

section
variable {c0 c1 c2 c3 c4 ty q6 q7 : Byte} {tail : Bytes}

theorem frameEvent_of_not_hex (h : unhex4 c0 c1 c2 c3 = none) :
    frameEvent (c0 :: c1 :: c2 :: c3 :: c4 :: ty :: q6 :: q7 :: tail) =
      .errHexdigit (c0 :: c1 :: c2 :: c3 :: c4 :: ty :: q6 :: q7 :: tail).length := by
  simp only [frameEvent, h]

theorem frameEvent_of_hex {sum : Half} (h : unhex4 c0 c1 c2 c3 = some sum) :
    frameEvent (c0 :: c1 :: c2 :: c3 :: c4 :: ty :: q6 :: q7 :: tail) =
      if sum = csum csumSeed (c4 :: ty :: q6 :: q7 :: tail) then
        .frameOk (c0 :: c1 :: c2 :: c3 :: c4 :: ty :: q6 :: q7 :: tail).length ty (seqFields q6 q7).1 (seqFields q6 q7).2
      else .errChecksum (c0 :: c1 :: c2 :: c3 :: c4 :: ty :: q6 :: q7 :: tail).length := by
  simp only [frameEvent, h]

end

theorem parse_of_short {s : State} (h : s.rxCursor < 8) : parse s = .ok (.errMalformed s.rxCursor) := if_pos h

/-- PARSE of a held frame is the event of its bytes: the reads find them all (rule R160). -/
theorem Holds.parse_eq {s : State} {f : Bytes} (h : Holds s f) : parse s = .ok (frameEvent f) := by
  have ⟨hcur, _, _⟩ := h
  rcases Nat.lt_or_ge f.length 8 with hshort | hlong
  · rw [parse_of_short (hcur ▸ hshort), hcur, frameEvent_of_short hshort]
  obtain ⟨c0, c1, c2, c3, c4, ty, q6, q7, tail, rfl⟩ := exists_fields_of_length hlong
  have hnot : ¬ s.rxCursor < minFrameLen := hcur ▸ Nat.not_lt.mpr hlong
  have hbody : s.bufRange csumFieldLen (s.rxCursor - csumFieldLen) = .ok (c4 :: ty :: q6 :: q7 :: tail) :=
    Holds.bufRange (a := [c0, c1, c2, c3]) h
  simp only [parse, if_neg hnot, h.bufRead (k := 0) (by omega), h.bufRead (k := 1) (by omega),
    h.bufRead (k := 2) (by omega), h.bufRead (k := 3) (by omega), h.bufRead (k := 5) (by omega),
    h.bufRead (k := 6) (by omega), h.bufRead (k := 7) (by omega), hbody, bind, Except.bind, List.getElem_cons_zero,
    List.getElem_cons_succ]
  cases hsum : unhex4 c0 c1 c2 c3 with
  | none => rw [frameEvent_of_not_hex hsum, hcur]
  | some sum =>
    rw [frameEvent_of_hex hsum, hcur]
    exact (apply_ite Except.ok _ _ _).symm

theorem seqFields_of_some {q6 q7 v : Byte} (h : unhex2 q6 q7 = some v) : seqFields q6 q7 = (true, v) := by
  simp [seqFields, h]

theorem seqFields_of_none {q6 q7 : Byte} (h : unhex2 q6 q7 = none) : seqFields q6 q7 = (false, 0x00#8) := by
  simp [seqFields, h]

/-- Settles O29: the verdict is `frameEvent`, taken branch by branch. -/
theorem parseJudgesTheFrame : Obligations.ParseJudgesTheFrame := by
  refine ⟨fun s => parse_of_short, fun s f h => ⟨frameEvent f, h.parse_eq, ?raised, frameEvent_of_short, ?fields⟩⟩
  case raised =>
    rw [exec_parse, h.parse_eq]
    rfl
  case fields =>
    rintro c0 c1 c2 c3 c4 ty q6 q7 tail rfl
    refine ⟨frameEvent_of_not_hex, fun sum hsum => ?_⟩
    rw [frameEvent_of_hex hsum]
    refine ⟨fun hne => if_neg hne, fun heq => ⟨fun v hv => ?_, fun hv => ?_⟩⟩
    · exact (if_pos heq).trans (by rw [seqFields_of_some hv])
    · exact (if_pos heq).trans (by rw [seqFields_of_none hv])

/-! ## The accepted frames -/

/-- The frames PARSE accepts: 8 bytes or more, the first four the checksum of the rest in hex (rule R169). -/
theorem frameEvent_eq_frameOk_iff {f : Bytes} :
    (∃ ty valid sq, frameEvent f = .frameOk f.length ty valid sq) ↔
      8 ≤ f.length ∧ ∃ c0 c1 c2 c3 body, f = c0 :: c1 :: c2 :: c3 :: body ∧
        unhex4 c0 c1 c2 c3 = some (csum csumSeed body) := by
  rcases Nat.lt_or_ge f.length 8 with hshort | hlong
  · simp [frameEvent_of_short hshort, Nat.not_le.mpr hshort]
  obtain ⟨c0, c1, c2, c3, c4, ty, q6, q7, tail, rfl⟩ := exists_fields_of_length hlong
  constructor
  · rintro ⟨_, _, _, hev⟩
    refine ⟨hlong, c0, c1, c2, c3, _, rfl, ?_⟩
    cases hsum : unhex4 c0 c1 c2 c3 with
    | none => simp [frameEvent_of_not_hex hsum] at hev
    | some sum =>
      rw [frameEvent_of_hex hsum] at hev
      split at hev
      · exact congrArg some ‹_›
      · cases hev
  · rintro ⟨-, _, _, _, _, _, ⟨⟩, hsum⟩
    exact ⟨ty, _, _, by rw [frameEvent_of_hex hsum, if_pos rfl]⟩

/-- No later byte can tell a receiver at reset from the one a first reset leaves. -/
theorem RxAtReset.sameFrame_resetWith {s : State} (h : RxAtReset s) : SameFrame (State.resetWith s.cfg) s := by
  obtain ⟨he, hcur, -⟩ := h
  exact ⟨rfl, he, hcur, by simp⟩

/-- A receiver at reset takes every byte sequence to its end, whatever its buffer holds. -/
theorem RxAtReset.rxChunk_ok {s : State} (h : RxAtReset s) (bs : Bytes) : ∃ t, rxChunk bs s = .ok t := by
  have ⟨_, _, hc⟩ := h
  obtain ⟨t, ht⟩ := (rxInv_resetWith s.cfg).rxChunk_ok hc bs
  obtain ⟨t', -, ht', -⟩ := h.sameFrame_resetWith.rxChunk_ok ht
  exact ⟨t', ht'⟩

/-- The length of an accepted frame is the cursor of an escaping receiver, which lies inside the buffer. -/
theorem CursorInside.frameOk_len_lt {s t : State} {b ty q : Byte} {n : Nat} {v : Bool} (hs : CursorInside s)
    (h : rxByte b s = .ok t) (hev : t.rxEvent = some (.frameOk n ty v q)) : n < s.cfg.capacity := by
  obtain ⟨hcur, hesc⟩ := hs
  obtain ⟨ev, hevents, hlen, -, -, -, -, hparsed, -⟩ := eventFields s t b hcur (exec_rxbyte_ok h)
  obtain rfl : ev = .frameOk n ty v q := by simpa [State.rxEvent, hevents] using hev
  obtain ⟨he, -⟩ := hparsed.mp ⟨n, .inr (.inr ⟨ty, v, q, rfl⟩)⟩
  obtain rfl : n = s.rxCursor := hlen nofun
  exact hesc he

/-- Whatever the bytes before it, a frame accepted at the last byte of a stream is shorter than the buffer. -/
theorem RxAtReset.frameOk_len_lt {s t : State} {bs : Bytes} {b ty q : Byte} {n : Nat} {v : Bool} (hs : RxAtReset s)
    (h : rxChunk (bs ++ [b]) s = .ok t) (hev : t.rxEvent = some (.frameOk n ty v q)) : n < s.cfg.capacity := by
  obtain ⟨he, hcur, hc⟩ := hs
  cases hu : rxChunk bs s with
  | error f =>
    rw [rxChunk_append, hu] at h
    cases h
  | ok u =>
    rw [rxChunk_append, hu] at h
    obtain ⟨hinside, -⟩ := rxChunk_keeps_cursorInside hc (cursorInside_of_reset he hcur) hu
    obtain ⟨-, hcfg, -, -⟩ := rxChunk_frame hu
    exact hcfg ▸ hinside.frameOk_len_lt ((rxChunk_one b u).symm.trans h) hev

/-- Settles O35: with room the last event is PARSE's on exactly the frame; without, no accepted frame is that long. -/
theorem acceptedFrames : Obligations.AcceptedFrames := by
  intro s f hs
  rcases Nat.lt_or_ge f.length s.cfg.capacity with hroom | hfull
  · obtain ⟨t, ht, hev⟩ := rxChunk_wireFrame hs hroom fun _ hheld => hheld.parse_eq
    refine ⟨t, ht, ?_⟩
    simp only [hev, Option.some.injEq, frameEvent_eq_frameOk_iff, Nat.succ_le_of_lt hroom, true_and]
    rfl
  · obtain ⟨t, ht⟩ := hs.rxChunk_ok (wireFrame f)
    have hsplit : wireFrame f = (escape f ++ [escByte]) ++ [termByte] := by
      rw [List.append_assoc]
      rfl
    refine ⟨t, ht, iff_of_false ?_ fun ⟨_, hlt, _⟩ => by omega⟩
    rintro ⟨ty, valid, sq, hev⟩
    exact absurd (hs.frameOk_len_lt (hsplit ▸ ht) hev) (by omega)

end Sys2Proof.Machine
end

section
/-! PROOFS. The block's session at its ports: nothing presented, and the hardware reset (45_session_wrapper.md). -/

namespace Sys2Proof.Machine

theorem fetch_of_empty {s : State} (h : s.inbox = []) : fetch s = .other s := by
  simp [fetch, h]

theorem step_reset {s : State} {rest : List Input} (h : s.inbox = .reset :: rest) :
    step s = .next (s.withInbox rest).hardReset :=
  step_eq_of_other (by simp [fetch, h])

/-- On an idle TX path nothing is cut, and the reset input leaves what RXINIT does (rule R230). -/
theorem hardReset_idle {s : State} (h : s.tx = .idle) : s.hardReset = s.sessionReset.raise .none := by
  rw [State.hardReset, cutTx_idle h]

theorem step_reset_idle {s : State} {rest : List Input} (hidle : s.tx = .idle) (hin : s.inbox = .reset :: rest) :
    step s = .next ((s.withInbox rest).sessionReset.raise .none) := by
  rw [step_reset hin, hardReset_idle (s := s.withInbox rest) hidle]

/-- Settles O44: the fetch of an empty inbox is no operation and leaves the state. -/
theorem nothingPresentedNothingDone : Obligations.NothingPresentedNothingDone :=
  fun _ hin => step_eq_of_other (fetch_of_empty hin)

/-- Settles O46: with no operation to cut, the step is the session reset with the event `NONE`, which is RXINIT's. -/
theorem hardwareResetIsRxinit : Obligations.HardwareResetIsRxinit := by
  intro s rest hidle hin
  have hstep := step_reset_idle hidle hin
  refine ⟨hstep.trans (exec_rxinit _).symm, _, hstep, ?_⟩
  simp [SameTx]

end Sys2Proof.Machine
end

section
/-! PROOFS. Events, statuses and stops (60_exceptions.md): the record of events as an output nothing reads, the statuses the
block outputs, the event word, and the one step that stops. -/

namespace Sys2Proof.Machine

/-! ## The record of events is an output alone -/

/-- The same block with another record of past events. -/
def State.withEvents (s : State) (past : List RxEvent) : State := { s with rxEvents := past }

theorem fullTest_withEvents (s : State) (past : List RxEvent) :
    (s.withEvents past).fullTest = (s.fullTest.1, s.fullTest.2.withEvents past) := by
  obtain ⟨hroom, htest⟩ | ⟨hfull, htest⟩ := fullTest_cases s <;> rw [htest]
  · exact fullTest_of_lt hroom
  · exact fullTest_of_le hfull

theorem parse_withEvents (s : State) (past : List RxEvent) : parse (s.withEvents past) = parse s :=
  parse_congr rfl rfl rfl

/-- One RXBYTE adds one event, the same one to any record. -/
theorem rxByte_withEvents {b : Byte} {s t : State} (h : rxByte b s = .ok t) (past : List RxEvent) :
    ∃ ev, t.rxEvents = s.rxEvents ++ [ev] ∧ rxByte b (s.withEvents past) = .ok (t.withEvents (past ++ [ev])) := by
  have htest := fullTest_withEvents s past
  obtain ⟨he, rfl, rfl⟩ | ⟨he, hb, hr, rfl⟩ | ⟨he, rfl, hr, rfl⟩ | ⟨he, rfl, ev, hev, rfl⟩ | ⟨he, hb, hb', rfl⟩ :=
    rxByte_ok_cases h
  · refine ⟨s.fullTest.1, by simp, ?_⟩
    rw [rxByte_esc_of_normal (s := s.withEvents past) he, htest]
    rfl
  · refine ⟨s.fullTest.1, by simp, ?_⟩
    rw [rxByte_lit_of_normal (s := s.withEvents past) he (by rw [fullTest_cfg, htest]; exact hr) hb, htest]
    rfl
  · exact ⟨_, rfl, rxByte_escaping_esc (s := s.withEvents past) he hr⟩
  · refine ⟨ev, rfl, ?_⟩
    rw [rxByte_escaping_term (s := s.withEvents past) he, parse_withEvents, hev]
    rfl
  · exact ⟨_, rfl, rxByte_escaping_bad (s := s.withEvents past) he hb hb'⟩

theorem rxChunk_withEvents {bs : Bytes} {s t : State} (h : rxChunk bs s = .ok t) (past : List RxEvent) :
    ∃ evs, t.rxEvents = s.rxEvents ++ evs ∧ rxChunk bs (s.withEvents past) = .ok (t.withEvents (past ++ evs)) := by
  induction bs generalizing s past with
  | nil =>
    cases h
    exact ⟨[], by simp, by simp⟩
  | cons b bs ih =>
    obtain ⟨u, hu, ht⟩ := rxChunk_cons_ok_iff.mp h
    obtain ⟨ev, hev, hu'⟩ := rxByte_withEvents hu past
    obtain ⟨evs, hevs, ht'⟩ := ih ht (past ++ [ev])
    exact ⟨ev :: evs, by simp [hevs, hev], by simpa [rxChunk_cons_ok hu'] using ht'⟩

theorem exec_rx_withEvents {i : Instr} {s t : State} (hi : onTx i = false) (h : exec i s = .next t)
    (past : List RxEvent) :
    ∃ evs, t.rxEvents = s.rxEvents ++ evs ∧ exec i (s.withEvents past) = .next (t.withEvents (past ++ evs)) := by
  obtain ⟨bs, -, he⟩ | ⟨-, he⟩ | ⟨-, he⟩ := exec_rx_cases hi <;> rw [he] at h ⊢
  · obtain ⟨evs, hevs, ht⟩ := rxChunk_withEvents (rxOutcome_next_iff.mp h) past
    exact ⟨evs, hevs, rxOutcome_next_iff.mpr ht⟩
  · cases h
    exact ⟨[.none], rfl, rfl⟩
  · rw [parse_withEvents]
    cases hp : parse s with
    | error f => simp [hp, Except.map] at h
    | ok ev =>
      rw [hp] at h
      cases h
      exact ⟨[ev], rfl, rfl⟩

/-- A TX operation adds no event, beside any record. -/
theorem exec_tx_withEvents {i : Instr} {s t : State} (hi : onTx i = true) (h : exec i s = .next t)
    (past : List RxEvent) : t.rxEvents = s.rxEvents ∧ exec i (s.withEvents past) = .next (t.withEvents past) := by
  have hbeside : exec i (s.withEvents past) = .next ((s.withEvents past).withRestOf t) :=
    exec_tx_withRestOf (r := s.withEvents past) hi rfl h
  rw [exec_tx_eq_withRestOf hi h]
  exact ⟨rfl, hbeside⟩

/-- Settles O39: RXBYTE and RXINIT add one event; no operation looks at the record it adds to. -/
theorem eventsAreOutputsOnly : Obligations.EventsAreOutputsOnly := by
  refine ⟨fun i s t hi h => ?oneEvent, fun i s t past h => ?anyPast⟩
  case oneEvent =>
    obtain ⟨b, rfl⟩ | rfl := hi
    · exact rxByte_rxEvents (rxByte_of_exec h)
    · cases h
      exact ⟨.none, rfl⟩
  case anyPast =>
    cases hi : onTx i with
    | false => exact exec_rx_withEvents hi h past
    | true =>
      obtain ⟨hev, ht⟩ := exec_tx_withEvents hi h past
      exact ⟨[], by rw [hev, List.append_nil], by rw [List.append_nil]; exact ht⟩

/-! ## The statuses -/

theorem errorKind_offset_bounds (k : ErrorKind) : 1 ≤ k.offset ∧ k.offset ≤ 9 := by
  cases k <;> decide

/-- In a legal configuration the code of a kind does not wrap around (rule R206). -/
theorem errorKind_code_toNat {c : Config} (hc : c.wf) (k : ErrorKind) : (k.code c).toNat = c.errBase + k.offset := by
  obtain ⟨-, hbase⟩ := hc
  obtain ⟨-, hle⟩ := errorKind_offset_bounds k
  exact (BitVec.toNat_ofNat _ _).trans (Nat.mod_eq_of_lt (by omega))

theorem errorKind_code_ne_okStatus {c : Config} (hc : c.wf) (k : ErrorKind) : k.code c ≠ okStatus := by
  intro h
  obtain ⟨hpos, -⟩ := errorKind_offset_bounds k
  have hzero : c.errBase + k.offset = 0 := (errorKind_code_toNat hc k).symm.trans (congrArg BitVec.toNat h)
  omega

/-- What the block may put on `tx_status` (rule R206), with `sink` the answers of the sink it may have had. -/
def OutputStatus (c : Config) (sink : SinkAnswer → Prop) (status : Half) : Prop :=
  status = okStatus ∨ (∃ x, sink x ∧ status = x.status ∧ x.status ≠ okStatus) ∨
    status = ErrorKind.level.code c ∨ status = ErrorKind.badcmd.code c

theorem OutputStatus.mono {c : Config} {sink sink' : SinkAnswer → Prop} {status : Half}
    (hsub : ∀ x, sink x → sink' x) (h : OutputStatus c sink status) : OutputStatus c sink' status :=
  h.imp_right (Or.imp_left fun ⟨x, hx, hstatus⟩ => ⟨x, hsub x hx, hstatus⟩)

/-- A run of bursts ends with `OK`, or with the status of an answer that failed (rules R56, R205). -/
theorem runSink_done_status (c : Config) {e : Emission} {as : List SinkAnswer} {status : Half}
    (h : (runSink e as).ended = .done status) : OutputStatus c (· ∈ as) status := by
  induction as generalizing e with
  | nil =>
    cases hn : e.next with
    | none =>
      rw [runSink_of_none hn] at h
      cases h
      exact .inl rfl
    | some p =>
      rw [runSink_no_answer hn] at h
      cases h
  | cons a as ih =>
    cases hn : e.next with
    | none =>
      rw [runSink_of_none hn] at h
      cases h
      exact .inl rfl
    | some p =>
      by_cases ha : a.status = okStatus
      · rw [runSink_cons_ok hn ha] at h
        exact (ih h).mono fun x hx => List.mem_cons_of_mem a hx
      · rw [runSink_cons_fail hn ha] at h
        cases h
        exact .inr (.inl ⟨a, List.mem_cons_self, rfl, ha⟩)

/-- Recording a run outputs the status of a run that ended and nothing else. -/
theorem mem_recordSink_txAnswers {s : State} {use : TxUse} {r : SinkRun} {a : TxAnswer}
    (h : a ∈ (s.recordSink use r).txAnswers) : a ∈ s.txAnswers ∨ r.ended = .done a.status := by
  cases hend : r.ended with
  | done status =>
    rw [recordSink_done hend] at h
    exact (List.mem_append.mp h).imp_right fun ha => by rw [List.mem_singleton.mp ha]
  | waiting burst rest =>
    rw [recordSink_waiting hend] at h
    exact .inl h

theorem mem_emit_txAnswers {s : State} {use : TxUse} {e : Emission} {a : TxAnswer}
    (h : a ∈ (s.emit use e).txAnswers) : a ∈ s.txAnswers ∨ OutputStatus s.cfg (· ∈ s.sinkAnswers) a.status :=
  (mem_recordSink_txAnswers h).imp_right (runSink_done_status s.cfg)

theorem mem_answer_txAnswers {s : State} {status : Half} {result : Option Half} {a : TxAnswer}
    (h : a ∈ (s.answer status result).txAnswers) : a ∈ s.txAnswers ∨ a.status = status :=
  (List.mem_append.mp h).imp_right fun ha => by rw [List.mem_singleton.mp ha]

theorem exec_tx_status {i : Instr} {s t : State} {a : TxAnswer} (hi : onTx i = true) (h : exec i s = .next t)
    (ha : a ∈ t.txAnswers) : a ∈ s.txAnswers ∨ OutputStatus s.cfg (· ∈ s.sinkAnswers) a.status := by
  cases i with
  | csum sd m =>
    obtain ⟨-, rfl⟩ := startTx_next_iff.mp ((exec_csum sd m s).symm.trans h)
    exact (mem_answer_txAnswers ha).imp_right .inl
  | esc m =>
    obtain ⟨-, rfl⟩ := startTx_next_iff.mp ((exec_esc m s).symm.trans h)
    exact mem_emit_txAnswers ha
  | sendlog level m =>
    obtain ⟨-, rfl⟩ := startTx_next_iff.mp ((exec_sendlog level m s).symm.trans h)
    exact mem_emit_txAnswers ha
  | sendlogRsvd m =>
    obtain ⟨-, rfl⟩ := startTx_next_iff.mp ((exec_sendlogRsvd m s).symm.trans h)
    exact (mem_answer_txAnswers ha).imp_right fun hstatus => .inr (.inr (.inl hstatus))
  | txRsvd m =>
    obtain ⟨-, rfl⟩ := startTx_next_iff.mp ((exec_txRsvd m s).symm.trans h)
    exact (mem_answer_txAnswers ha).imp_right fun hstatus => .inr (.inr (.inr hstatus))
  | lit | escesc | eof | escbad | rxbyte | rxinit | parse => simp [onTx] at hi

theorem exec_status {i : Instr} {s t : State} {a : TxAnswer} (h : exec i s = .next t) (ha : a ∈ t.txAnswers) :
    a ∈ s.txAnswers ∨ OutputStatus s.cfg (· ∈ s.sinkAnswers) a.status := by
  cases hi : onTx i with
  | true => exact exec_tx_status hi h ha
  | false =>
    obtain ⟨⟨-, hanswers, -⟩, -⟩ := exec_rx_frame hi h
    exact .inl (hanswers ▸ ha)

/-- A late answer of the sink may be the one a waiting operation ends with. -/
theorem takeSinkAnswer_status {s : State} {x : SinkAnswer} {a : TxAnswer} (ha : a ∈ (s.takeSinkAnswer x).txAnswers) :
    a ∈ s.txAnswers ∨ OutputStatus s.cfg (fun y => y ∈ s.sinkAnswers ∨ y = x) a.status := by
  cases htx : s.tx with
  | idle =>
    rw [takeSinkAnswer_idle htx] at ha
    exact .inl ha
  | waiting use burst rest =>
    rw [takeSinkAnswer_waiting htx] at ha
    exact (mem_recordSink_txAnswers ha).imp_right fun hend =>
      (runSink_done_status s.cfg hend).mono fun y hy => by simpa using hy

/-- The answers of the sink a step may serve: those there already, and the one that is presented. -/
def SinkAnswered (s : State) (x : SinkAnswer) : Prop := x ∈ s.sinkAnswers ∨ ∃ rest, s.inbox = .sink x :: rest

theorem fetch_other_status {s t : State} {a : TxAnswer} (h : fetch s = .other t) (ha : a ∈ t.txAnswers) :
    a ∈ s.txAnswers ∨ OutputStatus s.cfg (SinkAnswered s) a.status := by
  obtain ⟨-, rfl⟩ | ⟨rest, -, rfl⟩ | ⟨x, rest, hin, rfl⟩ | ⟨i, v, rest, -, rfl⟩ | ⟨i, v, rest, -, rfl⟩ | ⟨rest, -, rfl⟩ :=
    fetch_other_cases h
  · exact .inl ha
  · exact .inl ha
  · refine (takeSinkAnswer_status ha).imp_right (OutputStatus.mono fun y hy => ?_)
    exact hy.imp_right fun (hyx : y = x) => ⟨rest, hyx ▸ hin⟩
  all_goals exact .inl (by simpa [State.hardReset] using ha)

theorem step_status {s t : State} {a : TxAnswer} (h : step s = .next t) (ha : a ∈ t.txAnswers) :
    a ∈ s.txAnswers ∨ OutputStatus s.cfg (SinkAnswered s) a.status := by
  obtain ⟨i, u, hf, he⟩ | hf := step_next_cases h
  · rw [fetch_op_state hf] at he
    exact (exec_status he ha).imp_right (OutputStatus.mono fun _ => .inl)
  · exact fetch_other_status hf ha

/-- Settles O41: the codes are `ERR_BASE` and the offsets; an output status is that of the operation's own end, of the sink
run that ended, or of a reserved command. -/
theorem statusCodes : Obligations.StatusCodes := by
  refine ⟨fun c hc => ?codes, fun n b => ⟨rfl, rfl, rfl, rfl, rfl⟩, fun i s t h a => exec_status h,
    fun s t h a => step_status h⟩
  case codes =>
    have hcode := errorKind_code_toNat hc
    exact ⟨hcode _, hcode _, hcode _, hcode _, hcode _, hcode _, hcode _, hcode _, hcode _, rfl,
      errorKind_code_ne_okStatus hc⟩

/-! ## The event word -/

/-- `CUR_W` bits suffice for `CAPACITY`, and no fewer do (rule R24). -/
theorem curW_le_iff {c : Config} {k : Nat} : c.curW ≤ k ↔ c.capacity < 2 ^ k := by
  unfold Config.curW
  split
  case isTrue hzero => simp [hzero]
  case isFalse hpos => rw [Nat.add_one_le_iff, Nat.log2_lt hpos]

theorem curW_eq_clog (c : Config) : c.curW = Nat.clog 2 (c.capacity + 1) :=
  eq_of_forall_ge_iff fun k => by rw [curW_le_iff, Nat.clog_le_iff_le_pow one_lt_two, Nat.add_one_le_iff]

section
variable {n : Nat} (x : BitVec n) (N k : Nat)

/-- The field `x` at bit `k` of a word of `N` bits. -/
def fieldAt : BitVec N := x.setWidth N <<< k

variable {N k}

theorem extractLsb'_fieldAt_same (h : k + n ≤ N) : (fieldAt x N k).extractLsb' k n = x := by
  unfold fieldAt
  ext i hi
  simp [hi, show k + i < N by omega]

theorem extractLsb'_fieldAt_above {j m : Nat} (h : k + n ≤ j) : (fieldAt x N k).extractLsb' j m = 0#m := by
  unfold fieldAt
  ext i hi
  simp [show ¬j + i < k by omega, show n ≤ j + i - k by omega]

theorem extractLsb'_fieldAt_below {j m : Nat} (h : j + m ≤ k) : (fieldAt x N k).extractLsb' j m = 0#m := by
  unfold fieldAt
  ext i hi
  simp [show j + i < k by omega]

end

/-- The word is its six fields, each at its place (rule R203). -/
theorem word_eq_fields (c : Config) (e : RxEvent) :
    e.word c = fieldAt e.kind _ 0 ||| fieldAt (BitVec.ofNat c.curW e.lenField) _ 3 |||
      fieldAt e.typeField _ (3 + c.curW) ||| fieldAt (BitVec.ofBool e.seqValidField) _ (11 + c.curW) |||
      fieldAt e.seqField _ (12 + c.curW) ||| fieldAt e.byteField _ (20 + c.curW) := by
  simp only [RxEvent.word, fieldAt, BitVec.shiftLeft_zero]

/-- No two fields overlap, so each is read back as it was put in. -/
theorem word_fields (c : Config) (e : RxEvent) :
    (e.word c).extractLsb' 0 3 = e.kind ∧ (e.word c).extractLsb' 3 c.curW = BitVec.ofNat c.curW e.lenField ∧
    (e.word c).extractLsb' (3 + c.curW) 8 = e.typeField ∧
    (e.word c).extractLsb' (11 + c.curW) 1 = BitVec.ofBool e.seqValidField ∧
    (e.word c).extractLsb' (12 + c.curW) 8 = e.seqField ∧ (e.word c).extractLsb' (20 + c.curW) 8 = e.byteField := by
  rw [word_eq_fields]
  refine ⟨?kind, ?len, ?type, ?seqValid, ?seq, ?byte⟩
  all_goals
    simp (disch := omega) only [BitVec.extractLsb'_or, extractLsb'_fieldAt_same, extractLsb'_fieldAt_above,
      extractLsb'_fieldAt_below, BitVec.or_zero, BitVec.zero_or]

theorem typeField_seqFields_of_not_frameOk {e : RxEvent} (h : ∀ n ty v q, e ≠ .frameOk n ty v q) :
    e.typeField = 0#8 ∧ e.seqValidField = false ∧ e.seqField = 0#8 := by
  cases e with
  | frameOk n ty v q => exact absurd rfl (h n ty v q)
  | none | errChecksum | errMalformed | errOverflow | errProtocol | errHexdigit => exact ⟨rfl, rfl, rfl⟩

theorem byteField_of_not_errProtocol {e : RxEvent} (h : ∀ n b, e ≠ .errProtocol n b) : e.byteField = 0#8 := by
  cases e with
  | errProtocol n b => exact absurd rfl (h n b)
  | none | frameOk | errChecksum | errMalformed | errOverflow | errHexdigit => rfl

/-- Settles O42: the fields do not overlap, and a length up to `CAPACITY` fits in `CUR_W` bits. -/
theorem eventWordLayout : Obligations.EventWordLayout := by
  refine ⟨curW_eq_clog, fun c e hlen => ?places, ⟨rfl, fun _ _ _ _ => rfl, fun _ => ⟨rfl, rfl, rfl, rfl⟩, fun _ _ => rfl⟩,
    ⟨rfl, fun _ _ _ _ => rfl, fun _ => ⟨rfl, rfl, rfl, rfl⟩, fun _ _ => rfl⟩, fun _ _ _ _ => ⟨rfl, rfl, rfl⟩,
    fun _ _ => rfl, fun _ => ⟨typeField_seqFields_of_not_frameOk, byteField_of_not_errProtocol⟩⟩
  case places =>
    obtain ⟨hkind, hlenField, hrest⟩ := word_fields c e
    refine ⟨hkind, ?_, hrest⟩
    rw [hlenField]
    exact (BitVec.toNat_ofNat _ _).trans (Nat.mod_eq_of_lt (hlen.trans_lt (curW_le_iff.mp le_rfl)))

/-! ## The step that stops -/

/-- No second TX command is taken while one is in flight (rule R236). -/
theorem exec_tx_waiting {i : Instr} {s : State} {use : TxUse} {burst : Burst} {rest : Emission} (hi : onTx i = true)
    (h : s.tx = .waiting use burst rest) : exec i s = .fault .txBusy := by
  have hstart : ∀ run, s.startTx run = .fault .txBusy := fun run => by simp [State.startTx, h]
  obtain ⟨status, result, he⟩ | ⟨use, e, he⟩ := exec_tx_cases hi
  · exact (he s).trans (hstart _)
  · exact (he s).trans (hstart _)

theorem onTx_decodeTx (w : BitVec 20) (m : Bytes) : onTx (decodeTx w m) = true := by
  obtain ⟨sd, h⟩ | h | ⟨level, h⟩ | h | h := decodeTx_cases w m <;> rw [h] <;> rfl

theorem onTx_decodeRx (w : BitVec 9) : onTx (decodeRx w) = false := by
  unfold decodeRx
  split <;> rfl

theorem onTx_escapedToken (x : Byte) : onTx (escapedToken x) = false := by
  unfold escapedToken
  split
  · rfl
  · split <;> rfl

theorem onTx_cutStream (rxEsc : Bool) (b : Byte) (bs : Bytes) : onTx (cutStream rxEsc b bs).1 = false := by
  unfold cutStream
  split
  · rfl
  · split
    · obtain ⟨c, -, -, rfl⟩ | ⟨x, -, rfl⟩ := decodeToken_ok_cases ‹_›
      · rfl
      · exact onTx_escapedToken x
    · rfl

/-- A TX operation stands at the ports only as a TX command word (rule R86). -/
theorem inbox_of_fetch_tx {s u : State} {i : Instr} (h : fetch s = .op i u) (hi : onTx i = true) :
    ∃ w m rest, s.inbox = .tx w m :: rest := by
  unfold fetch at h
  split at h <;> cases h
  · exact ⟨_, _, _, ‹_›⟩
  · simp [onTx_decodeRx] at hi
  · simp [onTx_cutStream] at hi

theorem safeStep_of_not_txOverlap {s : State} (hs : BlockInv s) (h : ¬TxOverlap s) : SafeStep s := by
  cases hf : fetch s with
  | other t => exact ⟨t, step_eq_of_other hf⟩
  | op i u =>
    rw [SafeStep, step_eq_of_op hf, fetch_op_state hf]
    obtain ⟨hrxCompletes, htxCompletes⟩ := everyOperationCompletes
    cases hi : onTx i with
    | false => exact hrxCompletes i _ hi hs.capacity_pos (hs.withInbox u.inbox).rx
    | true =>
      refine htxCompletes i _ hi ?_
      cases htx : s.tx with
      | idle => exact htx
      | waiting use burst rest => exact absurd ⟨⟨use, burst, rest, htx⟩, inbox_of_fetch_tx hf hi⟩ h

/-- Settles O52: an RX operation always goes on under the invariant, a TX operation exactly from an idle path. -/
theorem onlyOverlapStops : Obligations.OnlyOverlapStops := by
  refine fun s hs => ⟨safeStep_of_not_txOverlap hs, fun hoverlap => ?overlap⟩
  case overlap =>
    obtain ⟨⟨use, burst, rest, htx⟩, w, m, inputs, hin⟩ := hoverlap
    rw [step_tx hin]
    exact exec_tx_waiting (onTx_decodeTx w m) htx

end Sys2Proof.Machine
end

section
/-! PROOFS. Reset and hazards (70_reset_and_hazards.md): the hardware reset that cuts a TX operation, and the second TX command
while one is in flight. -/

namespace Sys2Proof.Machine

/-! ## The hardware reset that cuts an operation (rules R230, R231) -/

/-- The bytes a cut puts on the wire are a front part of the bytes still to be sent, for every value of the free values. -/
theorem cut_prefix_flatten (bs : List Burst) (k n : Nat) :
    (bs.take k).flatten ++ ((bs.drop k).headD []).take n <+: bs.flatten :=
  (cut_prefix_flatten_take bs k n).trans (List.take_prefix (k + 1) bs).flatten

theorem cutTx_waiting_wire {s : State} {use : TxUse} {burst : Burst} {rest : Emission} (h : s.tx = .waiting use burst rest) :
    ∃ k, s.cutTx.wire = s.wire ++ (burst ++ rest.bursts.flatten).take k := by
  have hcut := cut_prefix_flatten (burst :: rest.bursts) (Config.cutBursts s.draws) (Config.cutBytes s.draws)
  rw [cutTx_waiting h, List.append_assoc]
  exact ⟨_, congrArg (s.wire ++ ·) (List.prefix_iff_eq_take.mp hcut)⟩

/-- What the reset input leaves beside the wire, whether or not it cuts an operation. -/
theorem hardReset_frame (s : State) : s.hardReset.txAnswers = s.txAnswers ∧ s.hardReset.tx = .idle ∧
    s.hardReset.rxEsc = false ∧ s.hardReset.rxCursor = 0 ∧ s.hardReset.buf = s.buf := by
  simp [State.hardReset]

/-- Settles O47: what the cut adds to the wire is a front part of the bytes in flight, whatever the free values are. -/
theorem cutOperationSendsAPrefix : Obligations.CutOperationSendsAPrefix := by
  intro s use burst rest inputs htx hin
  obtain ⟨k, hwire⟩ := cutTx_waiting_wire (s := s.withInbox inputs) htx
  exact ⟨_, k, step_reset hin, hwire, hardReset_frame (s.withInbox inputs)⟩

/-! ## The second TX command (rule R236) -/

/-- Settles O22: every TX operation goes through `startTx`, which takes none while the path waits. -/
theorem secondTxCommandStops : Obligations.SecondTxCommandStops :=
  fun _ _ _ _ _ hi hwaiting => exec_tx_waiting hi hwaiting

end Sys2Proof.Machine
end
